-- ==== Sys2Proof/Word.lean ====
section
/-! DEFINITION. The widths of the hardware's words. -/

namespace Sys2Proof

/-- A command word on the port `cmd`: 12 bits (30_encoding.md R84). -/
abbrev Word := BitVec 12

/-- A data byte: the widest value the block moves (20_memory.md R62, R64). -/
abbrev Byte := BitVec 8

/-- A line identifier, `LINE_ID_W` = 8 bits (00_scope.md R7, 20_memory.md R50). -/
abbrev LineId := BitVec 8

end Sys2Proof
end

