-- ==== Sys2Proof/Syntax.lean ====
section
/-! DEFINITION. The command set `OW-CMD-1` as syntax: one constructor per row of spec/opcode_table.json, and the
two fields of the one format `CMD12`. -/

namespace Sys2Proof

/-- The eight commands (30_encoding.md R88), with the operands of R85. -/
inductive Instr where
  /-- `INIT id`: configure line `id` and make it the bus (41_init.md R120). -/
  | init (id : LineId)
  /-- `WRITE_BIT b`: send one bit (42_bit_transport.md R130). -/
  | writeBit (b : Bool)
  /-- `READ_BIT`: receive one bit (42_bit_transport.md R133). -/
  | readBit
  /-- `WRITE_BYTE v`: send eight bits, bit 0 first (43_byte_transport.md R140). -/
  | writeByte (v : Byte)
  /-- `READ_BYTE`: receive eight bits, bit 0 first (43_byte_transport.md R143). -/
  | readByte
  /-- `OW_RESET`: reset pulse and presence sample (44_reset_presence.md R150). -/
  | owReset
  /-- `PP_ENABLE`: parasite-power hook (45_parasite_power_hooks.md R160). -/
  | ppEnable
  /-- `PP_DISABLE`: parasite-power hook (45_parasite_power_hooks.md R161). -/
  | ppDisable
  deriving DecidableEq, Repr, Inhabited

/-- The two fields of a `CMD12` word before any check (30_encoding.md R84). -/
structure RawCmd where
  /-- `[11:8]`, the operation code. -/
  op  : BitVec 4
  /-- `[7:0]`, the operand field. -/
  arg : Byte
  deriving DecidableEq, Repr, Inhabited

/-- The operation code of each command (30_encoding.md R88). -/
def Instr.opcode : Instr → BitVec 4
  | .init _      => 0x0
  | .writeBit _  => 0x1
  | .readBit     => 0x2
  | .writeByte _ => 0x3
  | .readByte    => 0x4
  | .owReset     => 0x5
  | .ppEnable    => 0x6
  | .ppDisable   => 0x7

/-- The operand field of each command, zero where it takes none (30_encoding.md R85, R92). -/
def Instr.operand : Instr → Byte
  | .init id     => id
  | .writeBit b  => if b then 0x01 else 0x00
  | .writeByte v => v
  | .readBit | .readByte | .owReset | .ppEnable | .ppDisable => 0x00

/-- A command as the two fields of its word. -/
def Instr.raw (i : Instr) : RawCmd := ⟨i.opcode, i.operand⟩

/-- The five timed commands, the ones that occupy the sequencer (10_state.md R24). -/
def Instr.timed : Instr → Bool
  | .writeBit _ | .readBit | .writeByte _ | .readByte | .owReset => true
  | .init _ | .ppEnable | .ppDisable => false

end Sys2Proof
end

