-- ==== Sys2Proof/WellFormed.lean ====
section
/-! DEFINITION. The checks a `CMD12` word must pass to be a command (30_encoding.md R85, R89). The operands of
`Instr` have exactly the widths the commands take, so the checks bear on the two raw fields of a word. -/

namespace Sys2Proof

/-- R89: an `op` of 0x8 to 0xF is no operation. -/
def RawCmd.opKnown (c : RawCmd) : Bool := decide (c.op ≤ 0x7)

/-- R85, `WRITE_BIT`: `arg[7:1] = 0`. -/
def RawCmd.bitOperandOk (c : RawCmd) : Bool :=
  if c.op = 0x1 then c.arg.extractLsb' 1 7 = 0 else true

/-- R85, the commands that take no operand: `arg = 0`. -/
def RawCmd.noOperandOk (c : RawCmd) : Bool :=
  if c.op = 0x2 ∨ c.op = 0x4 ∨ c.op = 0x5 ∨ c.op = 0x6 ∨ c.op = 0x7 then c.arg = 0 else true

/-- All checks of R85 and R89 together. -/
def RawCmd.wellFormed (c : RawCmd) : Bool := c.opKnown && c.bitOperandOk && c.noOperandOk

/-- A command is well formed when the fields of its word pass every check. -/
def Instr.wellFormed (i : Instr) : Bool := i.raw.wellFormed

end Sys2Proof
end

