-- ==== Sys2Proof/Decode.lean ====
section
/-! DEFINITION. `Decode`, total on the 4096 words, its encoder, and the opcode table as mask and match rows. -/

namespace Sys2Proof

/-- Why a word is no command (30_encoding.md R89). -/
inductive IllegalReason where
  /-- `op` in 0x8 to 0xF. -/
  | reservedOpcode
  /-- `WRITE_BIT` with `arg[7:1]` not zero. -/
  | bitOperand
  /-- A command that takes no operand, with `arg` not zero. -/
  | unusedOperand
  deriving DecidableEq, Repr

/-- The answer of `Decode` (30_encoding.md R87). -/
inductive Decoded where
  | command (i : Instr)
  | illegal (why : IllegalReason)
  deriving DecidableEq, Repr

/-- Bits `[11:8]` (30_encoding.md R84). -/
def opField (w : Word) : BitVec 4 := w.extractLsb' 8 4

/-- Bits `[7:0]` (30_encoding.md R84). -/
def argField (w : Word) : Byte := w.extractLsb' 0 8

/-- The two fields of a word. -/
def rawOf (w : Word) : RawCmd := ⟨opField w, argField w⟩

/-- A command that takes no operand: legal with `arg = 0` only. -/
def decodePlain (i : Instr) (arg : Byte) : Decoded :=
  if arg = 0 then .command i else .illegal .unusedOperand

/-- `Decode(w)`, case by case on `op` (30_encoding.md R87). -/
def decode (w : Word) : Decoded :=
  let arg := argField w
  match opField w with
  | 0x0#4 => .command (.init arg)
  | 0x1#4 => if arg.extractLsb' 1 7 = 0 then .command (.writeBit (arg.getLsbD 0)) else .illegal .bitOperand
  | 0x2#4 => decodePlain .readBit arg
  | 0x3#4 => .command (.writeByte arg)
  | 0x4#4 => decodePlain .readByte arg
  | 0x5#4 => decodePlain .owReset arg
  | 0x6#4 => decodePlain .ppEnable arg
  | 0x7#4 => decodePlain .ppDisable arg
  | _     => .illegal .reservedOpcode

/-- The word of a command: `{op, arg}` (30_encoding.md R84, R92). -/
def encode (i : Instr) : Word := i.opcode ++ i.operand

/-- One row of the opcode map (30_encoding.md R88). -/
structure OpcodeRow where
  mnemonic : String
  mask     : Word
  pattern  : Word
  deriving DecidableEq, Repr

/-- The opcode map, in the order of 30_encoding.md R88 and of spec/opcode_table.json. -/
def opcodeRows : List OpcodeRow :=
  [⟨"INIT", 0xF00, 0x000⟩, ⟨"WRITE_BIT", 0xFFE, 0x100⟩, ⟨"READ_BIT", 0xFFF, 0x200⟩, ⟨"WRITE_BYTE", 0xF00, 0x300⟩,
   ⟨"READ_BYTE", 0xFFF, 0x400⟩, ⟨"OW_RESET", 0xFFF, 0x500⟩, ⟨"PP_ENABLE", 0xFFF, 0x600⟩, ⟨"PP_DISABLE", 0xFFF, 0x700⟩]

/-- R88: a word selects the row with `(w & mask) = match`. -/
def OpcodeRow.selects (r : OpcodeRow) (w : Word) : Bool := w &&& r.mask = r.pattern

/-- The mnemonic of a command, as the table has it (00_scope.md R15). -/
def Instr.mnemonic : Instr → String
  | .init _      => "INIT"
  | .writeBit _  => "WRITE_BIT"
  | .readBit     => "READ_BIT"
  | .writeByte _ => "WRITE_BYTE"
  | .readByte    => "READ_BYTE"
  | .owReset     => "OW_RESET"
  | .ppEnable    => "PP_ENABLE"
  | .ppDisable   => "PP_DISABLE"

/-- The word that the table's numbering calls `w` (bit 0 the least significant bit of the one word), with every bit
from `nbits` on zero. -/
def tableValue (nbits w : Nat) : Nat := w % 2 ^ nbits

/-- The command the decoder reads from the table's `w`. The port is 12 bits wide, so a value with a bit at place 12
or above is no word of it (DESIGN CHOICE, notes/assumptions/21.md). -/
def decodeTableWord (nbits w : Nat) : Option Instr :=
  if tableValue nbits w < 4096 then
    match decode (BitVec.ofNat 12 (tableValue nbits w)) with
    | .command i => some i
    | .illegal _ => none
  else none

end Sys2Proof
end

