-- ==== Sys2Proof/Machine/Line.lean ====
section
/-! DEFINITION. What stands on the line's side: levels, directions, the pad record, the platform's answer, and the
events of the trace. -/

/-- Which tokens are values of `ConfigError`, beside the first: a parameter without a body, since 00_scope.md R7 leaves
the type open (93_implementation_defined.md U9; notes/assumptions/3.md). -/
opaque Sys2Proof.Config.isConfigError : Nat → Bool

namespace Sys2Proof.Machine

/-- A line level (00_scope.md R10). -/
inductive Level where
  | low
  | high
  deriving DecidableEq, Repr, Inhabited

/-- A pad's direction (00_scope.md R10). -/
inductive Direction where
  | input
  | output
  deriving DecidableEq, Repr, Inhabited

/-- A pad's mode (10_state.md R39). -/
inductive PadMode where
  | unconfigured
  | bidirOpenDrain
  deriving DecidableEq, Repr, Inhabited

/-- `pad[id] = (mode, pull_up, pull_down, int_en, dir, out)` (10_state.md R39). -/
structure Pad where
  mode     : PadMode
  pullUp   : Bool
  pullDown : Bool
  intEn    : Bool
  dir      : Direction
  out      : Level
  deriving DecidableEq, Repr, Inhabited

/-- The opaque type `ConfigError` (00_scope.md R7, 10_state.md R26). How many values it has stays open: the first, and
each token that the parameter `Config.isConfigError` admits. That it has a value at all and that its values can be
listed is the model's (DESIGN CHOICE, notes/assumptions/3.md). -/
inductive ConfigError where
  | first
  | other (token : { n : Nat // Config.isConfigError n = true })
  deriving DecidableEq, Repr, Inhabited

/-- The platform's answer to `configure_line`: `Ok` or `Err(e)` (20_memory.md R53). -/
inductive ConfigAnswer where
  | ok
  | err (e : ConfigError)
  deriving DecidableEq, Repr, Inhabited

/-- The events of the trace (40_execution_model.md R101). -/
inductive Event where
  /-- `configure_line` called on `id`, answer `r`. -/
  | configure (id : LineId) (r : ConfigAnswer)
  /-- `set_direction(id, d)`. -/
  | dir (id : LineId) (d : Direction)
  /-- `set_level(id, l)`. -/
  | level (id : LineId) (l : Level)
  /-- `get_level(id)` returned `l`. -/
  | sample (id : LineId) (l : Level)
  /-- `delay_microseconds(n)` called. -/
  | wait (n : Nat)
  deriving DecidableEq, Repr, Inhabited

/-- An event with the clock edge at which it happened (the "time of each event" of 20_memory.md R60). -/
structure Stamped where
  time  : Nat
  event : Event
  deriving DecidableEq, Repr, Inhabited

/-- What the oracle is asked with. 20_memory.md R60 names the trace so far with the time of each event and the index
of the sample; the edge of the sample itself and the line it is taken on are the model's addition (DESIGN CHOICE,
notes/assumptions/17.md). -/
structure SampleQuery where
  trace : List Stamped
  index : Nat
  time  : Nat
  line  : LineId
  deriving DecidableEq, Repr, Inhabited

/-- `bit(l)`: High is 1, Low is 0 (00_scope.md R10). -/
def Level.bit : Level → Bool
  | .high => true
  | .low  => false

/-- `level(b)` (00_scope.md R10). -/
def Level.ofBit (b : Bool) : Level := if b then .high else .low

/-- The number of samples in a trace: the index of the next one (20_memory.md R60). -/
def sampleCount : List Stamped → Nat
  | [] => 0
  | ⟨_, .sample _ _⟩ :: r => sampleCount r + 1
  | _ :: r => sampleCount r

end Sys2Proof.Machine
end

