-- ==== Sys2Proof/Config.lean ====
section
/-! DEFINITION. The protocol constants, the parameters the spec leaves open, and the values it leaves unspecified.
What the spec fixes has a body here; what it leaves open is an opaque constant without one. -/

namespace Sys2Proof

open Sys2Proof.Machine

/-! ### The protocol durations, in microseconds (00_scope.md R8) -/

/-- write-bit(1), line held low. -/
def Config.tW1Low : Nat := 6
/-- write-bit(1), line released. -/
def Config.tW1High : Nat := 64
/-- write-bit(0), line held low. -/
def Config.tW0Low : Nat := 60
/-- write-bit(0), line released. -/
def Config.tW0High : Nat := 10
/-- read-bit, line held low. -/
def Config.tRdLow : Nat := 6
/-- read-bit, wait before the sample. -/
def Config.tRdSettle : Nat := 9
/-- read-bit, recovery after the sample. -/
def Config.tRdRec : Nat := 55
/-- reset pulse, line held low. -/
def Config.tRstLow : Nat := 480
/-- reset, wait before the presence sample. -/
def Config.tRstWait : Nat := 70
/-- reset, recovery after the sample. -/
def Config.tRstRec : Nat := 410
/-- Byte framing: slots of a byte command (a count). -/
def Config.bitsPerByte : Nat := 8

/-! ### The parameters of a model (00_scope.md R7) -/

/-- `DELAY_MODEL`. `exact`: a wait of n microseconds lasts `n * TICKS_PER_US` edges. `atLeast extra`: it lasts
`extra k` edges more, a drawn number, `k` being the number of events recorded before the wait
(40_execution_model.md R104; notes/assumptions/16.md). -/
inductive DelayModel where
  | exact
  | atLeast (extra : Nat → Nat)

/-- The arguments of the model: the open parameters of 00_scope.md R7 and the values that
93_implementation_defined.md has drawn. None of it is state (10_state.md R45). -/
structure Params where
  /-- `TICKS_PER_US`, clock edges per microsecond. -/
  ticksPerUs : Nat
  /-- R7: an integer, at least 1. -/
  ticksPos   : 1 ≤ ticksPerUs
  /-- `DELAY_MODEL`. -/
  delay      : DelayModel
  /-- `PLATFORM_CONFIGURE`. -/
  platform   : LineId → ConfigAnswer
  /-- `Oracle` (20_memory.md R60). -/
  oracle     : SampleQuery → Level
  /-- U2: `dir` and `out` of a pad just configured; the argument counts the events recorded before. -/
  freeLatch  : Nat → Direction × Level
  /-- U3: `LINE_ID` after a failed `INIT`; the argument counts the events recorded before. -/
  freeLineId : Nat → LineId
  /-- U4: a pad whose configuration the platform rejected; the argument counts the events recorded before. -/
  freePad    : Nat → Pad
  /-- U9: `CFGERR` while it is unspecified; the argument is the edge. -/
  freeCfgErr : Nat → ConfigError

/-- The width `CNT_W` of the delay counter, `ceil(log2(480 * TICKS_PER_US + 1))` (00_scope.md R7), written as
`floor(log2(480 * TICKS_PER_US)) + 1`. -/
def Params.cntWidth (p : Params) : Nat := Nat.log2 (Config.tRstLow * p.ticksPerUs) + 1

/-! ### The machine's own parameters: open, hence without a body (notes/assumptions/2.md) -/

/-- `TICKS_PER_US` less one. -/
opaque Config.ticksBeyondFirst : Nat
/-- `PLATFORM_CONFIGURE`. -/
opaque Config.platform : LineId → ConfigAnswer
/-- `Oracle`. -/
opaque Config.oracle : SampleQuery → Level
/-- U2 (notes/assumptions/4.md). -/
opaque Config.freeLatch : Nat → Direction × Level
/-- U3 (notes/assumptions/5.md). -/
opaque Config.freeLineId : Nat → LineId
/-- U4 (notes/assumptions/6.md). -/
opaque Config.freePad : Nat → Pad
/-- U9 (notes/assumptions/7.md). -/
opaque Config.freeCfgErr : Nat → ConfigError

/-- The parameters of the machine `Sys2Proof.core`: `DELAY_MODEL = exact`, the value R7 fixes; the rest open. -/
def Config.params : Params where
  ticksPerUs := Config.ticksBeyondFirst + 1
  ticksPos   := Nat.le_add_left 1 Config.ticksBeyondFirst
  delay      := .exact
  platform   := Config.platform
  oracle     := Config.oracle
  freeLatch  := Config.freeLatch
  freeLineId := Config.freeLineId
  freePad    := Config.freePad
  freeCfgErr := Config.freeCfgErr

end Sys2Proof
end

