-- ==== Sys2Proof/Machine/State.lean ====
section
/-! DEFINITION. The state of one controller instance with the pads it acts on, the reasons a step can stop, and the
state after reset. -/

namespace Sys2Proof.Machine

/-- The line-identifier space (20_memory.md R50): (identifier, pad) cells, identifiers strictly rising and below 256,
no cell equal to what an unlisted identifier reads as (`Memory.wf`). -/
abbrev Memory := List (Nat × Pad)

/-- What a pad that nothing has touched since power-on reads as. The spec gives no power-on state (10_state.md R39);
DESIGN CHOICE, unsafe, notes/assumptions/8.md. -/
def Pad.untouched : Pad := ⟨.unconfigured, false, false, false, .input, .high⟩

/-- The input pins at one clock edge (40_execution_model.md R105). -/
structure Pins where
  hreset   : Bool
  cmdValid : Bool
  cmd      : Word
  deriving DecidableEq, Repr, Inhabited

/-- One entry of what the host will do (notes/assumptions/15.md). -/
inductive HostMove where
  /-- Drive these pins at the next edge, whatever the block is doing. -/
  | pins (p : Pins)
  /-- One command of a run (40_execution_model.md R118): wait for `cmd_ready = 1`, leave `gap` idle edges, then
  present `w`. -/
  | command (gap : Nat) (w : Word)
  deriving DecidableEq, Repr

/-- The state of one controller instance (10_state.md R20), the pads (R39), and three fields of the model's own. -/
structure State where
  /-- `LINE_ID`, R22. -/
  lineId : LineId
  /-- `READY`, R23. -/
  ready  : Bool
  /-- `BUSY`, R24. -/
  busy   : Bool
  /-- `ERR`, R25. -/
  err    : BitVec 3
  /-- `CFGERR`, R26. -/
  cfgerr : ConfigError
  /-- `RESULT`, R27. -/
  result : Byte
  /-- `OP`, R31. -/
  op     : BitVec 4
  /-- `PHASE`, R32. -/
  phase  : BitVec 2
  /-- `CNT`, R33; its width depends on `TICKS_PER_US`, so the width is an invariant. -/
  cnt    : Nat
  /-- `BITIDX`, R34. -/
  bitidx : BitVec 3
  /-- `SH`, R35. -/
  sh     : Byte
  /-- `SAMP`, R36. -/
  samp   : Bool
  /-- `pad[id]`, R39. -/
  pads   : Memory
  /-- The model's own: the event trace (40_execution_model.md R101), oldest first. -/
  trace  : List Stamped
  /-- The model's own: clock edges since the start. -/
  now    : Nat
  /-- The model's own: what the host will do, next first. -/
  host   : List HostMove
  deriving DecidableEq, Repr

/-- Why the machine stops with a fault. -/
inductive Fault where
  /-- Raised by the sequencer when a wait ends while `BUSY = 1` and `OP` holds a value for which
  40_execution_model.md R108 gives no slot kind (0, or 6 to 15). No state that R43 admits raises it. Safe. -/
  | noSlotKind
  deriving DecidableEq, Repr

/-- Why a step is given no meaning. -/
inductive Refusal where
  /-- Raised by `exec`'s arm of a command that has no meaning yet; no arm raises it. Safe. -/
  | notModelled (mnemonic : String)
  /-- Raised at an edge with `hreset = 1` and `BUSY = 1`: "a model refuses a run" that does this
  (70_reset_and_hazards.md R203, 90_conflicts.md C5). Safe. -/
  | hresetWhileBusy
  deriving DecidableEq, Repr

/-- The block right after `HRESET` at power-on (70_reset_and_hazards.md R201): idle, not ready, no error. The spec
leaves `CFGERR` unspecified; the value `first` is a DESIGN CHOICE (notes/assumptions/7.md). -/
def State.reset : State where
  lineId := 0x00
  ready  := false
  busy   := false
  err    := 0
  cfgerr := .first
  result := 0x00
  op     := 0
  phase  := 0
  cnt    := 0
  bitidx := 0
  sh     := 0x00
  samp   := false
  pads   := []
  trace  := []
  now    := 0
  host   := []

end Sys2Proof.Machine
end

