-- ==== Sys2Proof/Machine/Operands.lean ====
section
/-! DEFINITION. The operand and data arithmetic of the block: every line of the table of 43_byte_transport.md R147
that is about data. -/

namespace Sys2Proof.Machine

/-- `zext_8(x)` of one bit (00_scope.md R9). -/
def zext8 (b : Bool) : Byte := (BitVec.ofBool b).setWidth 8

/-- `s >> 1`, logical (43_byte_transport.md R147). -/
def shiftOut (s : Byte) : Byte := s >>> 1

/-- `{x, s[7:1]}`: shift right, the new bit at bit 7 (10_state.md R35; 43_byte_transport.md R143, R147). -/
def shiftIn (x : Bool) (s : Byte) : Byte := BitVec.ofBool x ++ s.extractLsb' 1 7

/-- `s[0]`, the bit sent in a write slot (10_state.md R35). -/
def lowBit (s : Byte) : Bool := s.getLsbD 0

/-- `OP` 3 and 4, the byte commands (40_execution_model.md R110). -/
def isByteOp (op : BitVec 4) : Bool := op = 3#4 || op = 4#4

/-- What `SH` is loaded with at acceptance: the operand for writes, `0x00` otherwise (40_execution_model.md R107). -/
def loadSh (i : Instr) : Byte :=
  match i with
  | .writeBit _ | .writeByte _ => i.operand
  | .init _ | .readBit | .readByte | .owReset | .ppEnable | .ppDisable => 0x00

end Sys2Proof.Machine
end

