-- ==== Sys2Proof/Machine/Ops.lean ====
section
/-! DEFINITION. The named operations: the pads as memory, the trace, the five collaborator primitives of
20_memory.md R52, and the one way an error is taken. -/

namespace Sys2Proof.Machine

/-! ### The pads as memory (20_memory.md R50; 10_state.md R39) -/

/-- The pad at key `k`. -/
def Memory.lookup (k : Nat) : Memory → Pad
  | [] => Pad.untouched
  | (a, v) :: r => if a = k then v else Memory.lookup k r

/-- Put `v` at key `k`, keeping the keys rising. -/
def Memory.insert (k : Nat) (v : Pad) : Memory → Memory
  | [] => [(k, v)]
  | (a, x) :: r =>
    if a < k then (a, x) :: Memory.insert k v r
    else if a = k then (k, v) :: r
    else (k, v) :: (a, x) :: r

/-- Remove every cell of key `k` (in canonical form there is at most one). -/
def Memory.erase (k : Nat) : Memory → Memory
  | [] => []
  | (a, x) :: r => if a = k then Memory.erase k r else (a, x) :: Memory.erase k r

/-- Read `pad[id]`. -/
def Memory.read (m : Memory) (id : LineId) : Pad := Memory.lookup id.toNat m

/-- `pad[id] <- v`; a pad written back to what an untouched one reads as leaves no cell. -/
def Memory.write (m : Memory) (id : LineId) (v : Pad) : Memory :=
  if v = Pad.untouched then Memory.erase id.toNat m else Memory.insert id.toNat v m

/-- Keys rise strictly from `lo`, lie below 256, and no cell holds the untouched pad. -/
def Memory.risesFrom (lo : Nat) : Memory → Bool
  | [] => true
  | (k, v) :: r => decide (lo ≤ k) && decide (k < 256) && decide (v ≠ Pad.untouched) && Memory.risesFrom (k + 1) r

/-- The canonical form. -/
def Memory.wf (m : Memory) : Bool := Memory.risesFrom 0 m

/-- `pad[id]` in a state. -/
def State.pad (s : State) (id : LineId) : Pad := Memory.read s.pads id

/-- `pad[id] <- v` in a state. -/
def State.setPad (id : LineId) (v : Pad) (s : State) : State := { s with pads := Memory.write s.pads id v }

/-! ### The trace (40_execution_model.md R101) -/

/-- `emit(e)`, stamped with the edge at which it happens. -/
def State.emit (e : Event) (s : State) : State := { s with trace := s.trace ++ [⟨s.now, e⟩] }

/-- The trace without its time stamps. -/
def State.events (s : State) : List Event := s.trace.map Stamped.event

/-! ### The collaborator primitives (20_memory.md R52 to R57) -/

/-- The configured attributes that `LineConfigure` asks for, with the unspecified `dir` and `out` given
(20_memory.md R53, R54). -/
def Pad.configured (latch : Direction × Level) : Pad := ⟨.bidirOpenDrain, true, false, false, latch.1, latch.2⟩

/-- `LineConfigure(id)` (20_memory.md R53): the pad after an accepted configuration has free `dir` and `out` (U2,
notes/assumptions/4.md), after a rejected one it is free whole (U4, notes/assumptions/6.md). -/
def lineConfigure (p : Params) (id : LineId) (s : State) : ConfigAnswer × State :=
  let r := p.platform id
  let drawn := s.trace.length
  let s1 := s.emit (.configure id r)
  (r, s1.setPad id (match r with
    | .ok    => Pad.configured (p.freeLatch drawn)
    | .err _ => p.freePad drawn))

/-- `LineDir(id, d)` (20_memory.md R55). -/
def lineDir (id : LineId) (d : Direction) (s : State) : State :=
  (s.setPad id { s.pad id with dir := d }).emit (.dir id d)

/-- `LineLevel(id, l)` (20_memory.md R56). -/
def lineLevel (id : LineId) (l : Level) (s : State) : State :=
  (s.setPad id { s.pad id with out := l }).emit (.level id l)

/-- What the oracle is asked when line `id` is sampled in this state (20_memory.md R60; notes/assumptions/17.md). -/
def State.query (s : State) (id : LineId) : SampleQuery := ⟨s.trace, sampleCount s.trace, s.now, id⟩

/-- `LineSample(id)` (20_memory.md R57): the level is the oracle's answer (R60). -/
def lineSample (p : Params) (id : LineId) (s : State) : Level × State :=
  let l := p.oracle (s.query id)
  (l, s.emit (.sample id l))

/-- The number of edges a wait of `n` microseconds lasts, `k` events having been recorded before it
(40_execution_model.md R104). -/
def waitTicks (p : Params) (k n : Nat) : Nat :=
  match p.delay with
  | .exact         => n * p.ticksPerUs
  | .atLeast extra => n * p.ticksPerUs + extra k

/-- `Wait(n)` at the tick level: the event, and `CNT` loaded (40_execution_model.md R104, R111). -/
def beginWait (p : Params) (n : Nat) (s : State) : State :=
  { s.emit (.wait n) with cnt := waitTicks p s.trace.length n }

/-! ### Errors (60_exceptions.md R176) -/

/-- The error codes (10_state.md R25, 60_exceptions.md R175). -/
inductive ErrCode where
  | ok
  | configError
  | illegalCmd
  | unimplemented
  | notReady
  deriving DecidableEq, Repr

/-- The 3 bits of `ERR` (10_state.md R25). -/
def ErrCode.bits : ErrCode → BitVec 3
  | .ok            => 0
  | .configError   => 1
  | .illegalCmd    => 2
  | .unimplemented => 3
  | .notReady      => 4

/-- `raise Err(code)`: `ERR <- code`, and the command ends at the acceptance edge. Nothing is saved and control goes
nowhere: this is the whole of taking an exception here, and there is no return from one (60_exceptions.md R176,
R180). -/
def raise (c : ErrCode) (s : State) : State := { s with err := c.bits }

/-! ### Hardware reset and the clock -/

/-- `HRESET` (70_reset_and_hazards.md R200 to R202): every register takes its reset value, `CFGERR` a free one (U9,
notes/assumptions/7.md); the pads, the trace and the host are not touched. -/
def hardReset (p : Params) (s : State) : State :=
  { State.reset with cfgerr := p.freeCfgErr s.now, pads := s.pads, trace := s.trace, now := s.now, host := s.host }

/-- One clock edge has passed. -/
def State.tick (s : State) : State := { s with now := s.now + 1 }

/-- Apply `f` to the next state, if there is one. -/
def onNext (f : State → State) : Host.Outcome State Fault Refusal → Host.Outcome State Fault Refusal
  | .next s    => .next (f s)
  | .fault r   => .fault r
  | .refused r => .refused r

end Sys2Proof.Machine
end

