-- ==== Sys2Proof/Machine/Sequencer.lean ====
section
/-! DEFINITION. The sequencer: the phase table, phase entry, completion, and what one clock edge does while a command
is in flight. -/

namespace Sys2Proof.Machine

/-- The kinds of slot (40_execution_model.md R108). -/
inductive SlotKind where
  | writeSlot
  | readSlot
  | resetSeq
  deriving DecidableEq, Repr

/-- The zero-time actions of a phase (40_execution_model.md R102). `WAIT` is `beginWait`, `CONFIG` is
`lineConfigure`. -/
inductive Action where
  | dirOut
  | dirIn
  | lvlLo
  | lvlHi
  | sample
  deriving DecidableEq, Repr

/-- One row of the phase table: the entry actions in order, and the wait in microseconds. -/
structure PhaseRow where
  actions : List Action
  waitUs  : Nat
  deriving DecidableEq, Repr

/-- `Kind(OP)` (40_execution_model.md R108); it is defined for 1 to 5 only. -/
def kindOf (op : BitVec 4) : Option SlotKind :=
  if op = 1#4 ∨ op = 3#4 then some .writeSlot
  else if op = 2#4 ∨ op = 4#4 then some .readSlot
  else if op = 5#4 then some .resetSeq
  else none

/-- `LastPhase(kind)` (40_execution_model.md R108). -/
def lastPhase : SlotKind → BitVec 2
  | .writeSlot => 1
  | .readSlot  => 2
  | .resetSeq  => 2

/-- `PhaseTable(kind, phase, b)` (40_execution_model.md R109). Only the phases up to `LastPhase` are ever entered; a
later number reads as the kind's last row (notes/assumptions/13.md). -/
def phaseTable (k : SlotKind) (phase : BitVec 2) (b : Bool) : PhaseRow :=
  match k with
  | .writeSlot =>
    if phase = 0 then ⟨[.dirOut, .lvlLo], if b then Config.tW1Low else Config.tW0Low⟩
    else ⟨[.lvlHi], if b then Config.tW1High else Config.tW0High⟩
  | .readSlot =>
    if phase = 0 then ⟨[.dirOut, .lvlLo], Config.tRdLow⟩
    else if phase = 1 then ⟨[.lvlHi, .dirIn], Config.tRdSettle⟩
    else ⟨[.sample], Config.tRdRec⟩
  | .resetSeq =>
    if phase = 0 then ⟨[.dirOut, .lvlLo], Config.tRstLow⟩
    else if phase = 1 then ⟨[.lvlHi, .dirIn], Config.tRstWait⟩
    else ⟨[.sample], Config.tRstRec⟩

/-- `SAMP <- bit(l); if OP = 4 then SH <- {SAMP, SH[7:1]}` (40_execution_model.md R102). -/
def storeSample (l : Level) (s : State) : State :=
  { s with samp := l.bit, sh := if s.op = 4#4 then shiftIn l.bit s.sh else s.sh }

/-- One micro-operation on the line `LINE_ID` (40_execution_model.md R102). -/
def perform (p : Params) (a : Action) (s : State) : State :=
  match a with
  | .dirOut => lineDir s.lineId .output s
  | .dirIn  => lineDir s.lineId .input s
  | .lvlLo  => lineLevel s.lineId .low s
  | .lvlHi  => lineLevel s.lineId .high s
  | .sample => storeSample (lineSample p s.lineId s).1 (lineSample p s.lineId s).2

/-- The actions of one phase entry, in their listed order, at one edge (40_execution_model.md R103). -/
def performAll (p : Params) (as : List Action) (s : State) : State := as.foldl (fun t a => perform p a t) s

/-- `Enter()` (40_execution_model.md R111). -/
def enter (p : Params) (k : SlotKind) (s : State) : State :=
  let row := phaseTable k s.phase (lowBit s.sh)
  beginWait p row.waitUs (performAll p row.actions s)

/-- The value a completing command writes to `RESULT` (40_execution_model.md R113). -/
def completionResult (s : State) : Byte :=
  if s.op = 2#4 then zext8 s.samp
  else if s.op = 4#4 then s.sh
  else if s.op = 5#4 then zext8 (!s.samp)
  else s.result

/-- `Complete()` (40_execution_model.md R113). -/
def complete (s : State) : State := { s with result := completionResult s, busy := false }

/-- The next slot of a byte command, at the edge at which the last one ends (40_execution_model.md R110, R112). -/
def nextSlot (p : Params) (k : SlotKind) (s : State) : State :=
  enter p k { s with sh := if s.op = 3#4 then shiftOut s.sh else s.sh, bitidx := s.bitidx + 1, phase := 0 }

/-- The edge at which a phase's wait ends: next phase, next slot, or completion (40_execution_model.md R110). -/
def endOfWait (p : Params) (k : SlotKind) (s : State) : State :=
  if s.phase < lastPhase k then enter p k { s with phase := s.phase + 1 }
  else if isByteOp s.op ∧ s.bitidx < 7#3 then nextSlot p k s
  else complete s

/-- `Edge()` while `BUSY = 1` (40_execution_model.md R110). -/
def sequencerEdge (p : Params) (s : State) : Host.Outcome State Fault Refusal :=
  if 1 < s.cnt then .next { s with cnt := s.cnt - 1 }
  else
    match kindOf s.op with
    | some k => .next (endOfWait p k s)
    | none   => .fault .noSlotKind

/-- The acceptance of a timed command whose checks have passed (40_execution_model.md R107), `k` being the command's
slot kind. -/
def startTimed (p : Params) (k : SlotKind) (i : Instr) (s : State) : State :=
  enter p k { s with err := ErrCode.ok.bits, op := i.opcode, sh := loadSh i, bitidx := 0, phase := 0, busy := true }

/-- A timed command with `READY = 0` ends at once with `NOT_READY` (60_exceptions.md R173); otherwise it starts. -/
def acceptTimed (p : Params) (k : SlotKind) (i : Instr) (s : State) : State :=
  if s.ready then startTimed p k i s else raise .notReady s

end Sys2Proof.Machine
end

