-- ==== Sys2Proof/Machine/BitTransport.lean ====
section
/-! DEFINITION. Bit transport: `WRITE_BIT` and `READ_BIT` (42_bit_transport.md). Accepting one performs the first
phase of its slot; the sequencer performs the rest at the edges that follow. -/

namespace Sys2Proof.Machine

/-- Accept `WRITE_BIT b` (42_bit_transport.md R130). -/
def acceptWriteBit (p : Params) (b : Bool) (s : State) : State := acceptTimed p .writeSlot (.writeBit b) s

/-- Accept `READ_BIT` (42_bit_transport.md R133). -/
def acceptReadBit (p : Params) (s : State) : State := acceptTimed p .readSlot .readBit s

/-- `WRITE_BIT b`. -/
def execWriteBit (b : Bool) (s : State) : Host.Outcome State Fault Refusal :=
  .next (acceptWriteBit Config.params b s)

/-- `READ_BIT`. -/
def execReadBit (s : State) : Host.Outcome State Fault Refusal := .next (acceptReadBit Config.params s)

end Sys2Proof.Machine
end

