-- ==== Sys2Proof/Machine/ByteTransport.lean ====
section
/-! DEFINITION. Byte transport: `WRITE_BYTE` and `READ_BYTE` (43_byte_transport.md). -/

namespace Sys2Proof.Machine

/-- Accept `WRITE_BYTE v` (43_byte_transport.md R140). -/
def acceptWriteByte (p : Params) (v : Byte) (s : State) : State := acceptTimed p .writeSlot (.writeByte v) s

/-- Accept `READ_BYTE` (43_byte_transport.md R143). -/
def acceptReadByte (p : Params) (s : State) : State := acceptTimed p .readSlot .readByte s

/-- `WRITE_BYTE v`. -/
def execWriteByte (v : Byte) (s : State) : Host.Outcome State Fault Refusal :=
  .next (acceptWriteByte Config.params v s)

/-- `READ_BYTE`. -/
def execReadByte (s : State) : Host.Outcome State Fault Refusal := .next (acceptReadByte Config.params s)

end Sys2Proof.Machine
end

