-- ==== Sys2Proof/Machine/Init.lean ====
section
/-! DEFINITION. Bus initialization: `INIT` (41_init.md). -/

namespace Sys2Proof.Machine

/-- `ExecInit(id)` (41_init.md R120). After a failure `LINE_ID` is a free value (U3, notes/assumptions/5.md). -/
def acceptInit (p : Params) (id : LineId) (s : State) : State :=
  let drawn := s.trace.length
  let s1 := (lineConfigure p id s).2
  match (lineConfigure p id s).1 with
  | .ok    => { s1 with lineId := id, ready := true, err := ErrCode.ok.bits }
  | .err e => { raise .configError s1 with ready := false, cfgerr := e, lineId := p.freeLineId drawn }

/-- `INIT id` (41_init.md R120 to R123). -/
def execInit (id : LineId) (s : State) : Host.Outcome State Fault Refusal :=
  .next (acceptInit Config.params id s)

end Sys2Proof.Machine
end

