-- ==== Sys2Proof/Machine/ParasitePower.lean ====
section
/-! DEFINITION. The parasite-power hooks: `PP_ENABLE` and `PP_DISABLE` (45_parasite_power_hooks.md). Their whole
effect is the error code (notes/assumptions/10.md). -/

namespace Sys2Proof.Machine

/-- Accept `PP_ENABLE` (45_parasite_power_hooks.md R160). -/
def acceptPpEnable (s : State) : State := raise .unimplemented s

/-- Accept `PP_DISABLE` (45_parasite_power_hooks.md R161). -/
def acceptPpDisable (s : State) : State := raise .unimplemented s

/-- `PP_ENABLE`. -/
def execPpEnable (s : State) : Host.Outcome State Fault Refusal := .next (acceptPpEnable s)

/-- `PP_DISABLE`. -/
def execPpDisable (s : State) : Host.Outcome State Fault Refusal := .next (acceptPpDisable s)

end Sys2Proof.Machine
end

