-- ==== Sys2Proof/Machine/ResetPresence.lean ====
section
/-! DEFINITION. The reset and presence handshake: `OW_RESET` (44_reset_presence.md). -/

namespace Sys2Proof.Machine

/-- Accept `OW_RESET` (44_reset_presence.md R150). -/
def acceptOwReset (p : Params) (s : State) : State := acceptTimed p .resetSeq .owReset s

/-- `OW_RESET`. -/
def execOwReset (s : State) : Host.Outcome State Fault Refusal := .next (acceptOwReset Config.params s)

end Sys2Proof.Machine
end

