-- ==== Sys2Proof/Machine/Dispatch.lean ====
section
/-! DEFINITION. The meaning of each command: what its acceptance does at the acceptance edge
(40_execution_model.md R107). -/

namespace Sys2Proof.Machine

def exec (i : Instr) (s : State) : Host.Outcome State Fault Refusal :=
  match i with
  | .init id => Sys2Proof.Machine.execInit id s
  | .writeBit b => Sys2Proof.Machine.execWriteBit b s
  | .readBit => Sys2Proof.Machine.execReadBit s
  | .writeByte v => Sys2Proof.Machine.execWriteByte v s
  | .readByte => Sys2Proof.Machine.execReadByte s
  | .owReset => Sys2Proof.Machine.execOwReset s
  | .ppEnable => Sys2Proof.Machine.execPpEnable s
  | .ppDisable => Sys2Proof.Machine.execPpDisable s

end Sys2Proof.Machine
end

