-- ==== Sys2Proof/Machine/Edge.lean ====
section
/-! DEFINITION. One clock edge with the input pins given, for any parameters; and the host, which decides what the
pins carry. -/

namespace Sys2Proof.Machine

/-- The acceptance of each command for any parameters; `exec` is this at `Config.params`. -/
def accept (p : Params) (i : Instr) (s : State) : State :=
  match i with
  | .init id     => acceptInit p id s
  | .writeBit b  => acceptWriteBit p b s
  | .readBit     => acceptReadBit p s
  | .writeByte v => acceptWriteByte p v s
  | .readByte    => acceptReadByte p s
  | .owReset     => acceptOwReset p s
  | .ppEnable    => acceptPpEnable s
  | .ppDisable   => acceptPpDisable s

/-- `Accept(w)` (40_execution_model.md R107): an illegal word ends with `ILLEGAL_CMD` (60_exceptions.md R171), a
command has the meaning `ex` gives it. -/
def acceptWord (ex : Instr → State → Host.Outcome State Fault Refusal) (w : Word) (s : State) :
    Host.Outcome State Fault Refusal :=
  match decode w with
  | .illegal _ => .next (raise .illegalCmd s)
  | .command i => ex i s

/-- What a clock edge does (40_execution_model.md R100, R106, R110; 70_reset_and_hazards.md R200, R203), before the
time moves on: `HRESET` overrides everything and is refused while `BUSY = 1`; while `BUSY = 1` the pins are ignored;
a word is accepted when `cmd_valid = 1`. -/
def edgeCore (p : Params) (ex : Instr → State → Host.Outcome State Fault Refusal) (x : Pins) (s : State) :
    Host.Outcome State Fault Refusal :=
  if x.hreset then
    if s.busy then .refused .hresetWhileBusy else .next (hardReset p s)
  else if s.busy then sequencerEdge p s
  else if x.cmdValid then acceptWord ex x.cmd s
  else .next s

/-- One clock edge with the pins `x`. -/
def edge (p : Params) (ex : Instr → State → Host.Outcome State Fault Refusal) (x : Pins) (s : State) :
    Host.Outcome State Fault Refusal :=
  onNext State.tick (edgeCore p ex x s)

/-- One clock edge for any parameters. -/
def tickEdge (p : Params) (x : Pins) (s : State) : Host.Outcome State Fault Refusal :=
  edge p (fun i t => .next (accept p i t)) x s

/-! ### The host (70_reset_and_hazards.md R216; notes/assumptions/15.md) -/

/-- Pins of a host that does nothing. -/
def Pins.idle : Pins := ⟨false, false, 0⟩

/-- Pins of a host that presents `w`. -/
def Pins.present (w : Word) : Pins := ⟨false, true, w⟩

/-- What the pins carry at the coming edge. A run's command is presented once `cmd_ready = 1` and its idle edges have
passed (40_execution_model.md R118). -/
def pinsNow (s : State) : Pins :=
  match s.host with
  | [] => Pins.idle
  | .pins x :: _ => x
  | .command gap w :: _ => if s.busy || gap != 0 then Pins.idle else Pins.present w

/-- What the host still has to do after that edge. -/
def hostAfter (s : State) : List HostMove :=
  match s.host with
  | [] => []
  | .pins _ :: r => r
  | .command gap w :: r =>
    if s.busy then .command gap w :: r
    else match gap with
      | 0 => r
      | g + 1 => .command g w :: r

/-- The state the edge acts on: the host has moved on. -/
def State.hostMoved (s : State) : State := { s with host := hostAfter s }

end Sys2Proof.Machine
end

