-- ==== Sys2Proof/Machine/Step.lean ====
section
/-! DEFINITION. The step: one clock edge, at the pins the host drives. -/

namespace Sys2Proof.Machine

/-- One step: the next clock edge (40_execution_model.md R100, R110). -/
def step (s : State) : Host.Outcome State Fault Refusal :=
  edge Config.params exec (pinsNow s) s.hostMoved

/-- `s` with the table's word `w` on the command port at the next edge, and the block idle so that the edge accepts
it (40_execution_model.md R106; notes/assumptions/15.md). -/
def State.withFetchWord (s : State) (nbits w : Nat) : State :=
  { s with busy := false, host := .pins (Pins.present (BitVec.ofNat 12 (tableValue nbits w))) :: s.host }

end Sys2Proof.Machine
end

