-- ==== Sys2Proof/Machine/Assembler.lean ====
section
/-! DEFINITION. The assembler syntax of 30_encoding.md R92: one command per line, a mnemonic in capitals, at most one
operand, `;` to the end of the line a comment. What R92 leaves open is fixed in notes/assumptions/22.md. -/

namespace Sys2Proof.Machine

/-- The answer for one line. -/
inductive AsmLine where
  | word (w : Word)
  | blank
  | error
  deriving DecidableEq, Repr

/-- A hexadecimal digit. -/
def digitValue (c : Char) : Option Nat :=
  if '0' ≤ c ∧ c ≤ '9' then some (c.toNat - 48)
  else if 'A' ≤ c ∧ c ≤ 'F' then some (c.toNat - 55)
  else if 'a' ≤ c ∧ c ≤ 'f' then some (c.toNat - 87)
  else none

/-- Digits of a base, the most significant first, after the value `acc`. -/
def digitsValue (base : Nat) : Nat → List Char → Option Nat
  | acc, [] => some acc
  | acc, c :: r =>
    match digitValue c with
    | some d => if d < base then digitsValue base (acc * base + d) r else none
    | none => none

/-- An operand: decimal, or hexadecimal with `0x`. -/
def operandValue : List Char → Option Nat
  | [] => none
  | ['0', 'x'] => none
  | '0' :: 'x' :: r => digitsValue 16 0 r
  | r => digitsValue 10 0 r

/-- The tokens of a line: split at blanks and tabs, stop at `;`. -/
def tokens : List Char → List Char → List (List Char)
  | cur, [] => if cur.isEmpty then [] else [cur]
  | cur, c :: r =>
    if c = ';' then (if cur.isEmpty then [] else [cur])
    else if c = ' ' ∨ c = '\t' then (if cur.isEmpty then tokens [] r else cur :: tokens [] r)
    else tokens (cur ++ [c]) r

/-- A command from its mnemonic and its operand; an operand out of range, missing or not wanted is an error. -/
def asmInstr (m : List Char) (operand : Option Nat) : Option Instr :=
  match m, operand with
  | ['I', 'N', 'I', 'T'], some n => if n < 256 then some (.init (BitVec.ofNat 8 n)) else none
  | ['W', 'R', 'I', 'T', 'E', '_', 'B', 'I', 'T'], some n =>
    if n = 0 then some (.writeBit false) else if n = 1 then some (.writeBit true) else none
  | ['R', 'E', 'A', 'D', '_', 'B', 'I', 'T'], none => some .readBit
  | ['W', 'R', 'I', 'T', 'E', '_', 'B', 'Y', 'T', 'E'], some n =>
    if n < 256 then some (.writeByte (BitVec.ofNat 8 n)) else none
  | ['R', 'E', 'A', 'D', '_', 'B', 'Y', 'T', 'E'], none => some .readByte
  | ['O', 'W', '_', 'R', 'E', 'S', 'E', 'T'], none => some .owReset
  | ['P', 'P', '_', 'E', 'N', 'A', 'B', 'L', 'E'], none => some .ppEnable
  | ['P', 'P', '_', 'D', 'I', 'S', 'A', 'B', 'L', 'E'], none => some .ppDisable
  | _, _ => none

/-- A command as an answer: its word, or an error. -/
def asmWord : Option Instr → AsmLine
  | some i => .word (encode i)
  | none   => .error

/-- Assemble one line (30_encoding.md R92). -/
def assembleLine (line : List Char) : AsmLine :=
  match tokens [] line with
  | [] => .blank
  | [m] => asmWord (asmInstr m none)
  | [m, x] =>
    match operandValue x with
    | some n => asmWord (asmInstr m (some n))
    | none => .error
  | _ => .error

end Sys2Proof.Machine
end

