-- ==== Sys2Proof/Machine/Operation.lean ====
section
/-! DEFINITION. The operation level (00_scope.md R14, 40_execution_model.md R115): each command as one ordered list of
primitive calls, time moving on at the waits. It is written from the commands' own pseudocode (41 to 45) and does not
use the sequencer, so that the agreement of the two levels (R116) is a theorem about both. -/

namespace Sys2Proof.Machine

/-- `Wait(n)` at the operation level: the event, and the time passes (40_execution_model.md R104). -/
def delay (p : Params) (n : Nat) (s : State) : State :=
  { s.emit (.wait n) with now := s.now + waitTicks p s.trace.length n }

/-- The actions of `WRITE_BIT(b)` (42_bit_transport.md R130). -/
def opWriteSlot (p : Params) (b : Bool) (s : State) : State :=
  let s1 := lineDir s.lineId .output s
  let s2 := lineLevel s.lineId .low s1
  let s3 := delay p (if b then Config.tW1Low else Config.tW0Low) s2
  let s4 := lineLevel s.lineId .high s3
  delay p (if b then Config.tW1High else Config.tW0High) s4

/-- The actions of `READ_BIT()` (42_bit_transport.md R133) and, with its own durations, of `OW_RESET()`
(44_reset_presence.md R150): low pulse, release, settle, sample, recovery. -/
def opSenseSlot (p : Params) (low settle recovery : Nat) (s : State) : Level × State :=
  let s1 := lineDir s.lineId .output s
  let s2 := lineLevel s.lineId .low s1
  let s3 := delay p low s2
  let s4 := lineLevel s.lineId .high s3
  let s5 := lineDir s.lineId .input s4
  let s6 := delay p settle s5
  let r  := lineSample p s.lineId s6
  (r.1, delay p recovery r.2)

/-- The actions of `READ_BIT()`. -/
def opReadSlot (p : Params) (s : State) : Level × State :=
  opSenseSlot p Config.tRdLow Config.tRdSettle Config.tRdRec s

/-- The actions of `OW_RESET()`. -/
def opResetSeq (p : Params) (s : State) : Level × State :=
  opSenseSlot p Config.tRstLow Config.tRstWait Config.tRstRec s

/-- `n` turns of the loop of `WRITE_BYTE` (43_byte_transport.md R140). -/
def opWriteLoop (p : Params) : Nat → Byte → State → State
  | 0, _, s => s
  | n + 1, v, s => opWriteLoop p n (shiftOut v) (opWriteSlot p (lowBit v) s)

/-- `n` turns of the loop of `READ_BYTE`, `r` the accumulator (43_byte_transport.md R143). -/
def opReadLoop (p : Params) : Nat → Byte → State → Byte × State
  | 0, r, s => (r, s)
  | n + 1, r, s =>
    let x := opReadSlot p s
    opReadLoop p n (shiftIn x.1.bit r) x.2

/-- What a timed command does once its checks have passed: its actions, then `RESULT`. -/
def operateBody (p : Params) (i : Instr) (s : State) : State :=
  match i with
  | .writeBit b  => opWriteSlot p b s
  | .readBit     => let x := opReadSlot p s; { x.2 with result := zext8 x.1.bit }
  | .writeByte v => opWriteLoop p Config.bitsPerByte v s
  | .readByte    => let x := opReadLoop p Config.bitsPerByte 0x00 s; { x.2 with result := x.1 }
  | .owReset     => let x := opResetSeq p s; { x.2 with result := zext8 (!x.1.bit) }
  | .init _ | .ppEnable | .ppDisable => s

/-- The operation-level meaning of a command, from an idle state (40_execution_model.md R115). -/
def operate (p : Params) (i : Instr) (s : State) : State :=
  match i with
  | .init id   => acceptInit p id s
  | .ppEnable  => raise .unimplemented s
  | .ppDisable => raise .unimplemented s
  | .writeBit _ | .readBit | .writeByte _ | .readByte | .owReset =>
    if s.ready then operateBody p i { s with err := ErrCode.ok.bits } else raise .notReady s

/-- Every `Sample` event of `new`, appended after `old`, holds the oracle's answer to the trace before it, the index of
the sample, its time and its line (20_memory.md R57, R60; notes/assumptions/17.md). -/
def answers (p : Params) : List Stamped → List Stamped → Prop
  | _, [] => True
  | old, e :: r =>
    (∀ id l, e.event = .sample id l → l = p.oracle ⟨old, sampleCount old, e.time, id⟩) ∧ answers p (old ++ [e]) r

/-! ### The table of 40_execution_model.md R115 -/

/-- `SlotW(b)`. -/
def slotW (L : LineId) (b : Bool) : List Event :=
  [.dir L .output, .level L .low, .wait (if b then 6 else 60), .level L .high, .wait (if b then 64 else 10)]

/-- `SlotR(l)`. -/
def slotR (L : LineId) (l : Level) : List Event :=
  [.dir L .output, .level L .low, .wait 6, .level L .high, .dir L .input, .wait 9, .sample L l, .wait 55]

/-- `RstSeq(l)`. -/
def rstSeq (L : LineId) (l : Level) : List Event :=
  [.dir L .output, .level L .low, .wait 480, .level L .high, .dir L .input, .wait 70, .sample L l, .wait 410]

/-- The eight bits of a byte, bit 0 first (20_memory.md R62). -/
def bitsLsbFirst (v : Byte) : List Bool := (List.range 8).map v.getLsbD

/-- The byte of eight levels, the first at bit 0: `{bit(l7), ..., bit(l0)}`. -/
def byteOfLevels (ls : List Level) : Byte :=
  BitVec.ofBoolListLE ((ls.map Level.bit).take 8) |>.setWidth 8

/-- How many samples a command takes. -/
def sampleTotal : Instr → Nat
  | .readBit | .owReset => 1
  | .readByte => 8
  | .init _ | .writeBit _ | .writeByte _ | .ppEnable | .ppDisable => 0

/-- The column "trace appended" for the timed commands, `ls` being the answers to the samples in order. -/
def tableTrace (L : LineId) (i : Instr) (ls : List Level) : List Event :=
  match i with
  | .writeBit b  => slotW L b
  | .readBit     => ls.flatMap (slotR L)
  | .writeByte v => (bitsLsbFirst v).flatMap (slotW L)
  | .readByte    => ls.flatMap (slotR L)
  | .owReset     => ls.flatMap (rstSeq L)
  | .init _ | .ppEnable | .ppDisable => []

/-- The column "duration" in microseconds. -/
def durationUs : Instr → Nat
  | .writeBit _ | .readBit => 70
  | .writeByte _ | .readByte => 560
  | .owReset => 960
  | .init _ | .ppEnable | .ppDisable => 0

/-- The effect on `RESULT` in the column "register effects", `old` being its value before. -/
def tableResult (i : Instr) (ls : List Level) (old : Byte) : Byte :=
  match i with
  | .readBit | .readByte => byteOfLevels ls
  | .owReset => zext8 (ls.all fun l => !l.bit)
  | .init _ | .writeBit _ | .writeByte _ | .ppEnable | .ppDisable => old

/-- A state with the sequencer registers blanked: what is left is what a host or the line can observe
(10_state.md R30, R115's last sentence). -/
def State.observable (s : State) : State := { s with op := 0, phase := 0, cnt := 0, bitidx := 0, sh := 0, samp := false }

end Sys2Proof.Machine
end

