-- ==== Sys2Proof/Machine/Bus.lean ====
section
/-! DEFINITION. The line's level from the pad and the environment (20_memory.md R58, R59), the named premises on the
environment (R61), and the test devices of 95_test_vectors.md section 1. None of it is state of the block. -/

namespace Sys2Proof.Machine

/-- `Drives(id)`: the block pulls line `id` low (20_memory.md R58). -/
def drives (s : State) (id : LineId) : Bool :=
  (s.pad id).mode = .bidirOpenDrain && (s.pad id).dir = .output && (s.pad id).out = .low

/-- The bus environment: what the devices and the pull-up do on a line at an instant, given the history. 20_memory.md
R59 says "some device on the line": every answer is for the line asked about, so two lines may differ at one instant.
That the answers are functions of the history, the time and the line is the model's (DESIGN CHOICE,
notes/assumptions/17.md). -/
structure Environment where
  /-- Some device pulls the line asked about low. -/
  pullsLow : SampleQuery → Bool
  /-- A pull-up is effective on it. -/
  pullUp   : SampleQuery → Bool
  /-- Its level when nothing determines it. -/
  floating : SampleQuery → Level

/-- `Level(id, t)` of a configured line (20_memory.md R59). -/
def lineLevelAt (env : Environment) (s : State) (id : LineId) : Level :=
  if drives s id then .low
  else if env.pullsLow (s.query id) then .low
  else if env.pullUp (s.query id) then .high
  else env.floating (s.query id)

/-- The oracle that an environment is: a sample is taken while the block does not drive the line (20_memory.md R60),
so the environment alone decides. -/
def Environment.oracle (env : Environment) (q : SampleQuery) : Level :=
  if env.pullsLow q then .low else if env.pullUp q then .high else env.floating q

/-- The last event is the settle wait of an `OW_RESET`, whose 70 microseconds no other phase has
(40_execution_model.md R109). Of the queries that a sample makes, the presence samples are those; of the queries about
any instant, the whole window is. -/
def SampleQuery.ofReset (q : SampleQuery) : Bool :=
  (q.trace.getLast?.map Stamped.event) = some (.wait Config.tRstWait)

/-- The query is about the instant of an `OW_RESET`'s presence sample, on the line sampled: the last two events are the
release of that line and the settle wait, and the time is the edge at which that wait ends, 70 microseconds after the
release (44_reset_presence.md R152; notes/assumptions/17.md). -/
def SampleQuery.atPresenceSample (p : Params) (q : SampleQuery) : Bool :=
  match q.trace.reverse with
  | ⟨released, .wait n⟩ :: ⟨_, .dir id .input⟩ :: _ =>
    n = Config.tRstWait && id = q.line && q.time = released + waitTicks p (q.trace.length - 1) n
  | _ => false

/-- The one query that decides an `OW_RESET` accepted in state `s`: made at the end of the settle wait, of the trace
with the command's six events up to that wait (44_reset_presence.md R150, R152; notes/assumptions/17.md). -/
def presenceQuery (p : Params) (s : State) : SampleQuery :=
  let released := s.now + waitTicks p (s.trace.length + 2) Config.tRstLow
  ⟨s.trace ++
    [⟨s.now, .dir s.lineId .output⟩, ⟨s.now, .level s.lineId .low⟩, ⟨s.now, .wait Config.tRstLow⟩,
     ⟨released, .level s.lineId .high⟩, ⟨released, .dir s.lineId .input⟩, ⟨released, .wait Config.tRstWait⟩],
   sampleCount s.trace, released + waitTicks p (s.trace.length + 5) Config.tRstWait, s.lineId⟩

/-- `BusWellBehaved` (20_memory.md R61). -/
def BusWellBehaved (env : Environment) : Prop := ∀ q, env.pullUp q = true

/-- `NoDevice` (20_memory.md R61). -/
def NoDevice (env : Environment) : Prop := BusWellBehaved env ∧ ∀ q, env.pullsLow q = false

/-- `PresenceResponder` (20_memory.md R61): at the sample of every `OW_RESET` some device pulls low. What the device
does before or after that instant is free (44_reset_presence.md R152). -/
def PresenceResponder (p : Params) (env : Environment) : Prop :=
  BusWellBehaved env ∧ ∀ q, q.atPresenceSample p = true → env.pullsLow q = true

/-- The test device NoDevice. -/
def noDeviceOracle : SampleQuery → Level := fun _ => .high

/-- The test device PresenceResponder; an oracle is asked at samples only. -/
def presenceOracle : SampleQuery → Level := fun q => if q.ofReset then .low else .high

/-- The queue of the test device Loopback after a trace: a write slot appends the bit its low pulse stands for, a
sample removes the head (95_test_vectors.md section 1; notes/assumptions/20.md). -/
def loopQueue : List Bool → List Event → List Bool
  | q, [] => q
  | q, .level _ .low :: .wait _ :: .level _ .high :: .dir _ .input :: r => loopQueue q r
  | q, .level _ .low :: .wait n :: .level _ .high :: r =>
    loopQueue (if n = 6 then q ++ [true] else if n = 60 then q ++ [false] else q) r
  | q, .sample _ _ :: r => loopQueue q.tail r
  | q, _ :: r => loopQueue q r

/-- The test device Loopback. -/
def loopbackOracle : SampleQuery → Level := fun q =>
  match loopQueue [] (q.trace.map Stamped.event) with
  | b :: _ => Level.ofBit b
  | []     => .high

end Sys2Proof.Machine
end

