-- ==== Sys2Proof/Machine/Flags.lean ====
section
/-! DEFINITION. The status flags as the host reads them: `STATUS`, the output ports, and the register map. No
arithmetic flag exists (10_state.md R38). -/

namespace Sys2Proof.Machine

/-- `STATUS`: `[0]` BUSY, `[1]` READY, `[4:2]` ERR, `[7:5]` zero (10_state.md R28). -/
def statusByte (s : State) : Byte := 0#3 ++ s.err ++ BitVec.ofBool s.ready ++ BitVec.ofBool s.busy

/-- `cmd_ready = NOT BUSY` (40_execution_model.md R105). -/
def cmdReady (s : State) : Bool := !s.busy

/-- What the host reads of `CFGERR`: the register while `ERR = CONFIG_ERROR`, any value otherwise (10_state.md R26,
U9; notes/assumptions/7.md). -/
def cfgerrPort (p : Params) (s : State) : ConfigError :=
  if s.err = ErrCode.configError.bits then s.cfgerr else p.freeCfgErr s.now

/-- The output ports (40_execution_model.md R105). -/
structure PortsOut where
  cmdReady : Bool
  status   : Byte
  result   : Byte
  lineId   : LineId
  cfgerr   : ConfigError
  deriving DecidableEq, Repr

/-- The output ports of a state. -/
def portsOut (p : Params) (s : State) : PortsOut :=
  ⟨cmdReady s, statusByte s, s.result, s.lineId, cfgerrPort p s⟩

/-- What a read of the register map gives (10_state.md R29). -/
inductive RegValue where
  | byte (b : Byte)
  | cfgerr (e : ConfigError)
  deriving DecidableEq, Repr

/-- The register map of 10_state.md R29. Number 0, `CMD`, is not readable; the map has no number above 4
(notes/assumptions/21.md). -/
def readReg (p : Params) (n : Nat) (s : State) : Option RegValue :=
  match n with
  | 1 => some (.byte (statusByte s))
  | 2 => some (.byte s.result)
  | 3 => some (.byte s.lineId)
  | 4 => some (.cfgerr (cfgerrPort p s))
  | _ => none

/-- `RESULT[0]` read as the presence flag of the last `OW_RESET` (10_state.md R38). -/
def presenceFlag (s : State) : Bool := s.result.getLsbD 0

end Sys2Proof.Machine
end

