-- ==== Sys2Proof/Machine/Run.lean ====
section
/-! DEFINITION. Runs: several edges with given pins, and the runs of 40_execution_model.md R118. -/

namespace Sys2Proof.Machine

/-- The edges with the pins `xs`, one after another, stopping at the first fault or refusal. -/
def runPins (p : Params) : List Pins → State → Host.Outcome State Fault Refusal
  | [], s => .next s
  | x :: xs, s =>
    match tickEdge p x s with
    | .next t    => runPins p xs t
    | .fault r   => .fault r
    | .refused r => .refused r

/-- A host that keeps `hreset` low over these edges. -/
def noReset (xs : List Pins) : Bool := xs.all fun x => !x.hreset

/-- A run: the command words, each with the idle edges before it (40_execution_model.md R118). -/
abbrev HostRun := List (Nat × Word)

/-- The host set to do a run. -/
def State.withRun (r : HostRun) (s : State) : State := { s with host := r.map fun c => .command c.1 c.2 }

/-- The run is over: every word is presented and `BUSY = 0` (40_execution_model.md R118). -/
def runOver (s : State) : Bool := s.host.isEmpty && !s.busy

/-- The outcome of a run: the trace, the host-visible registers and the pads (40_execution_model.md R118). -/
structure RunOutcome where
  trace : List Stamped
  ports : PortsOut
  pads  : Memory
  deriving DecidableEq, Repr

/-- The outcome read from the state in which the run is over. -/
def runOutcome (p : Params) (s : State) : RunOutcome := ⟨s.trace, portsOut p s, s.pads⟩

/-- One step of the machine for any parameters: the host drives the pins. -/
def stepWith (p : Params) (s : State) : Host.Outcome State Fault Refusal := tickEdge p (pinsNow s) s.hostMoved

end Sys2Proof.Machine
end

