-- ==== Sys2Proof/Safety.lean ====
section
/-! DEFINITION. The terms the claims use: the invariant of the machine, the host's duty, and what a safe edge is. -/

namespace Sys2Proof

open Sys2Proof.Machine

/-- What the pad of the bus line holds in a phase: driven low in phase 0; after it released, the direction still
Output in a write slot and Input in a read slot or a reset sequence (40_execution_model.md R109). -/
def padInPhase (k : SlotKind) (phase : BitVec 2) : Direction × Level :=
  if phase = 0 then (.output, .low)
  else match k with
    | .writeSlot => (.output, .high)
    | .readSlot  => (.input, .high)
    | .resetSeq  => (.input, .high)

/-- The invariant of every edge: the ranges of 10_state.md R43, the bounds of `CNT` (R33), the canonical form of the
pads, and what the pad of the bus line holds. -/
structure Inv (p : Params) (s : State) : Prop where
  /-- R43: `PHASE <= 2`. -/
  phaseLe    : s.phase ≤ 2
  /-- R43: `BITIDX = 0` unless `OP` is 3 or 4. -/
  bitidxZero : isByteOp s.op = false → s.bitidx = 0
  /-- R43: `ERR <= 4`. -/
  errLe      : s.err ≤ 4
  /-- R43: `BUSY = 1` implies `READY = 1`. -/
  busyReady  : s.busy = true → s.ready = true
  /-- R43: `BUSY = 1` implies `ERR = 0`. -/
  busyErr    : s.busy = true → s.err = 0
  /-- R43: `BUSY = 1` implies `OP` in 1 to 5; R32: the phase is one of the kind's. -/
  busyKind   : s.busy = true → ∃ k, kindOf s.op = some k ∧ s.phase ≤ lastPhase k
  /-- R33: `BUSY = 1` implies `1 <= CNT`. -/
  busyCnt    : s.busy = true → 1 ≤ s.cnt
  /-- R33: with exact waits, `CNT <= 480 * TICKS_PER_US`. -/
  cntLe      : p.delay = .exact → s.cnt ≤ Config.tRstLow * p.ticksPerUs
  /-- The pads are in canonical form. -/
  padsWf     : Memory.wf s.pads = true
  /-- `READY = 1` implies that the bus line's pad has the configured attributes (20_memory.md R53). -/
  readyPad   : s.ready = true → (s.pad s.lineId).mode = .bidirOpenDrain ∧ (s.pad s.lineId).pullUp = true ∧
                 (s.pad s.lineId).pullDown = false ∧ (s.pad s.lineId).intEn = false
  /-- `BUSY = 1` implies that the bus line's pad holds what its phase calls for. -/
  busyPad    : s.busy = true → ∀ k, kindOf s.op = some k →
                 ((s.pad s.lineId).dir, (s.pad s.lineId).out) = padInPhase k s.phase

/-- The host's duty at an edge: `hreset` only while `BUSY = 0` (70_reset_and_hazards.md R203, R216). -/
def HostDuty (x : Pins) (s : State) : Prop := x.hreset = true → s.busy = false

/-- An edge is safe when it leads to a next state. -/
def Advances (o : Host.Outcome State Fault Refusal) : Prop := ∃ t, o = .next t

/-- Two traces that differ at most in the levels their samples returned. -/
def eraseSamples (t : List Stamped) : List Stamped :=
  t.map fun e => match e.event with
    | .sample id _ => ⟨e.time, .sample id .low⟩
    | .configure _ _ | .dir _ _ | .level _ _ | .wait _ => e

/-- Two states that differ at most in what samples returned: `SAMP`, `RESULT`, the accumulator while it is read into,
and the levels in the trace (20_memory.md R60, 40_execution_model.md R114). -/
def SameButSamples (s t : State) : Prop :=
  { s with samp := t.samp, result := t.result, sh := t.sh, trace := t.trace } = t ∧
  eraseSamples s.trace = eraseSamples t.trace ∧ (kindOf s.op = some .writeSlot → s.sh = t.sh)

/-- The line whose pad the acceptance of a command may write: the operand of `INIT`, the bus line of a timed command
that is started, none otherwise (20_memory.md R51). -/
def padTarget (i : Instr) (s : State) : Option LineId :=
  match i with
  | .init id => some id
  | .writeBit _ | .readBit | .writeByte _ | .readByte | .owReset => if s.ready then some s.lineId else none
  | .ppEnable | .ppDisable => none

/-- A word is accepted at an edge with these pins (40_execution_model.md R106). -/
def accepts (x : Pins) (s : State) : Bool := !x.hreset && !s.busy && x.cmdValid

end Sys2Proof
end

