-- ==== Sys2Proof/Certificates/Slice0/Obligations.lean ====
section
/-! DEFINITION. The statements for the provers. `p : Params` ranges over every value of the parameters and of the free
values; `exec` and `step` are the machine at `Config.params`. -/

open Sys2Proof Sys2Proof.Machine

/-! ### Encoding -/

/-- 95_test_vectors.md section 3.1: the words of the decode table, the illegal ones among them. -/
def Obligations.SpecWordsDecode : Prop :=
  decode 0x000 = .command (.init 0) ∧ decode 0x004 = .command (.init 4) ∧ decode 0x0FF = .command (.init 255) ∧
  decode 0x100 = .command (.writeBit false) ∧ decode 0x101 = .command (.writeBit true) ∧
  decode 0x102 = .illegal .bitOperand ∧ decode 0x1FF = .illegal .bitOperand ∧
  decode 0x200 = .command .readBit ∧ decode 0x201 = .illegal .unusedOperand ∧
  decode 0x300 = .command (.writeByte 0x00) ∧ decode 0x3A5 = .command (.writeByte 0xA5) ∧
  decode 0x400 = .command .readByte ∧ decode 0x480 = .illegal .unusedOperand ∧
  decode 0x500 = .command .owReset ∧ decode 0x501 = .illegal .unusedOperand ∧
  decode 0x600 = .command .ppEnable ∧ decode 0x700 = .command .ppDisable ∧
  decode 0x601 = .illegal .unusedOperand ∧ decode 0x7FF = .illegal .unusedOperand ∧
  decode 0x800 = .illegal .reservedOpcode ∧ decode 0xFFF = .illegal .reservedOpcode

/-- 30_encoding.md R84, R85, R87: the decoder reads back every command from its word, with every operand. -/
def Obligations.DecodeOfEncode : Prop := ∀ i : Instr, decode (encode i) = .command i

/-- 30_encoding.md R84, R87: a word that decodes to a command is that command's one word. -/
def Obligations.EncodeOfDecode : Prop := ∀ (w : Word) (i : Instr), decode w = .command i → encode i = w

/-- 30_encoding.md R87: `Decode` on the two fields of a word, and the count of legal words. -/
def Obligations.DecodeByFields : Prop :=
  (∀ (op : BitVec 4) (arg : Byte),
    (op = 0 → decode (op ++ arg) = .command (.init arg)) ∧
    (op = 1 → arg = 0 → decode (op ++ arg) = .command (.writeBit false)) ∧
    (op = 1 → arg = 1 → decode (op ++ arg) = .command (.writeBit true)) ∧
    (op = 1 → 1 < arg → ∃ why, decode (op ++ arg) = .illegal why) ∧
    (op = 3 → decode (op ++ arg) = .command (.writeByte arg)) ∧
    (op = 2 → arg = 0 → decode (op ++ arg) = .command .readBit) ∧
    (op = 4 → arg = 0 → decode (op ++ arg) = .command .readByte) ∧
    (op = 5 → arg = 0 → decode (op ++ arg) = .command .owReset) ∧
    (op = 6 → arg = 0 → decode (op ++ arg) = .command .ppEnable) ∧
    (op = 7 → arg = 0 → decode (op ++ arg) = .command .ppDisable) ∧
    (op = 2 ∨ op = 4 ∨ op = 5 ∨ op = 6 ∨ op = 7 → arg ≠ 0 → ∃ why, decode (op ++ arg) = .illegal why) ∧
    (8 ≤ op → ∃ why, decode (op ++ arg) = .illegal why)) ∧
  ((List.range 4096).filter fun w => match decode (BitVec.ofNat 12 w) with
    | .command _ => true
    | .illegal _ => false).length = 519

/-- 30_encoding.md R88: at most one row of the opcode map matches a word, and the row that matches is the one of the
command the word decodes to, with that row's operation code. -/
def Obligations.OneRowPerWord : Prop :=
  (∀ (w : Word) (r q : OpcodeRow), r ∈ opcodeRows → q ∈ opcodeRows → r.selects w = true → q.selects w = true → r = q) ∧
  (∀ (w : Word) (r : OpcodeRow), r ∈ opcodeRows →
    (r.selects w = true ↔ ∃ i : Instr, decode w = .command i ∧ i.mnemonic = r.mnemonic ∧ opField w = i.opcode))

/-- 30_encoding.md R89 and 60_exceptions.md R171: which words are illegal, and what accepting one does, for every
state of the block. -/
def Obligations.IllegalWordEnds : Prop :=
  (∀ w : Word, (∃ why, decode w = .illegal why) ↔
    (8 ≤ opField w ∨ (opField w = 1 ∧ 1 < argField w) ∨
      ((opField w = 2 ∨ opField w = 4 ∨ opField w = 5 ∨ opField w = 6 ∨ opField w = 7) ∧ argField w ≠ 0))) ∧
  (∀ (p : Params) (x : Pins) (s : State) (why : IllegalReason), accepts x s = true → decode x.cmd = .illegal why →
    tickEdge p x s = .next { s with err := 2, now := s.now + 1 })

/-- 30_encoding.md R92: the examples of the assembler syntax, operands out of range, and a comment. -/
def Obligations.AssemblerExamples : Prop :=
  assembleLine ['I', 'N', 'I', 'T', ' ', '4'] = .word 0x004 ∧
  assembleLine ['W', 'R', 'I', 'T', 'E', '_', 'B', 'I', 'T', ' ', '1'] = .word 0x101 ∧
  assembleLine ['W', 'R', 'I', 'T', 'E', '_', 'B', 'Y', 'T', 'E', ' ', '0', 'x', 'A', '5'] = .word 0x3A5 ∧
  assembleLine ['O', 'W', '_', 'R', 'E', 'S', 'E', 'T', ' ', ';', ' ', 'p'] = .word 0x500 ∧
  assembleLine ['W', 'R', 'I', 'T', 'E', '_', 'B', 'I', 'T', ' ', '2'] = .error ∧
  assembleLine ['I', 'N', 'I', 'T', ' ', '2', '5', '6'] = .error

/-! ### What `exec` does with each command -/

/-- 41_init.md R120, 20_memory.md R53: `INIT` completes at the acceptance edge, for either answer of the platform;
everything it leaves alone is as it was. `freeLatch`, `freeLineId` and `freePad` are free values (U2 to U4,
notes/assumptions/4.md to 6.md): the statement holds for every value of them. -/
def Obligations.InitCompletes : Prop :=
  ∀ (id : LineId) (s : State),
    exec (.init id) s = .next (match Config.params.platform id with
      | .ok => { s with
          lineId := id, ready := true, err := 0,
          trace := s.trace ++ [⟨s.now, .configure id .ok⟩],
          pads := Memory.write s.pads id ⟨.bidirOpenDrain, true, false, false,
            (Config.params.freeLatch s.trace.length).1, (Config.params.freeLatch s.trace.length).2⟩ }
      | .err e => { s with
          lineId := Config.params.freeLineId s.trace.length, ready := false, err := 1, cfgerr := e,
          trace := s.trace ++ [⟨s.now, .configure id (.err e)⟩],
          pads := Memory.write s.pads id (Config.params.freePad s.trace.length) })

/-- 40_execution_model.md R107, R109, R111 for `WRITE_BIT b` with `READY = 1`: the acceptance edge, whole. -/
def Obligations.WriteBitStarts : Prop :=
  ∀ (b : Bool) (s : State), s.ready = true → ∃ t, exec (.writeBit b) s = .next t ∧
    { t with pads := s.pads } = { s with
      err := 0, op := 1, sh := (if b then 1 else 0), bitidx := 0, phase := 0, busy := true,
      cnt := (if b then 6 else 60) * Config.params.ticksPerUs,
      trace := s.trace ++ [⟨s.now, .dir s.lineId .output⟩, ⟨s.now, .level s.lineId .low⟩,
        ⟨s.now, .wait (if b then 6 else 60)⟩] } ∧
    t.pad s.lineId = { s.pad s.lineId with dir := .output, out := .low } ∧
    ∀ a, a ≠ s.lineId → t.pad a = s.pad a

/-- 40_execution_model.md R107, R109, R111 for `READ_BIT` with `READY = 1`: the acceptance edge, whole. -/
def Obligations.ReadBitStarts : Prop :=
  ∀ s : State, s.ready = true → ∃ t, exec .readBit s = .next t ∧
    { t with pads := s.pads } = { s with
      err := 0, op := 2, sh := 0, bitidx := 0, phase := 0, busy := true,
      cnt := 6 * Config.params.ticksPerUs,
      trace := s.trace ++ [⟨s.now, .dir s.lineId .output⟩, ⟨s.now, .level s.lineId .low⟩, ⟨s.now, .wait 6⟩] } ∧
    t.pad s.lineId = { s.pad s.lineId with dir := .output, out := .low } ∧
    ∀ a, a ≠ s.lineId → t.pad a = s.pad a

/-- 40_execution_model.md R107, R109, R111 for `WRITE_BYTE v` with `READY = 1`: the acceptance edge, whole; bit 0 of
`v` chooses the first low time. -/
def Obligations.WriteByteStarts : Prop :=
  ∀ (v : Byte) (s : State), s.ready = true → ∃ t, exec (.writeByte v) s = .next t ∧
    { t with pads := s.pads } = { s with
      err := 0, op := 3, sh := v, bitidx := 0, phase := 0, busy := true,
      cnt := (if v.getLsbD 0 then 6 else 60) * Config.params.ticksPerUs,
      trace := s.trace ++ [⟨s.now, .dir s.lineId .output⟩, ⟨s.now, .level s.lineId .low⟩,
        ⟨s.now, .wait (if v.getLsbD 0 then 6 else 60)⟩] } ∧
    t.pad s.lineId = { s.pad s.lineId with dir := .output, out := .low } ∧
    ∀ a, a ≠ s.lineId → t.pad a = s.pad a

/-- 40_execution_model.md R107, R109, R111 for `READ_BYTE` with `READY = 1`: the acceptance edge, whole. -/
def Obligations.ReadByteStarts : Prop :=
  ∀ s : State, s.ready = true → ∃ t, exec .readByte s = .next t ∧
    { t with pads := s.pads } = { s with
      err := 0, op := 4, sh := 0, bitidx := 0, phase := 0, busy := true,
      cnt := 6 * Config.params.ticksPerUs,
      trace := s.trace ++ [⟨s.now, .dir s.lineId .output⟩, ⟨s.now, .level s.lineId .low⟩, ⟨s.now, .wait 6⟩] } ∧
    t.pad s.lineId = { s.pad s.lineId with dir := .output, out := .low } ∧
    ∀ a, a ≠ s.lineId → t.pad a = s.pad a

/-- 40_execution_model.md R107, R109, R111 for `OW_RESET` with `READY = 1`: the acceptance edge, whole. -/
def Obligations.OwResetStarts : Prop :=
  ∀ s : State, s.ready = true → ∃ t, exec .owReset s = .next t ∧
    { t with pads := s.pads } = { s with
      err := 0, op := 5, sh := 0, bitidx := 0, phase := 0, busy := true,
      cnt := 480 * Config.params.ticksPerUs,
      trace := s.trace ++ [⟨s.now, .dir s.lineId .output⟩, ⟨s.now, .level s.lineId .low⟩, ⟨s.now, .wait 480⟩] } ∧
    t.pad s.lineId = { s.pad s.lineId with dir := .output, out := .low } ∧
    ∀ a, a ≠ s.lineId → t.pad a = s.pad a

/-- 60_exceptions.md R172: the hooks set `ERR = UNIMPLEMENTED` and change nothing else, in every state. -/
def Obligations.HooksReportUnimplemented : Prop :=
  ∀ s : State, exec .ppEnable s = .next { s with err := 3 } ∧ exec .ppDisable s = .next { s with err := 3 }

/-- 60_exceptions.md R173: a legal timed command with `READY = 0` sets `ERR = NOT_READY` and changes nothing else,
neither as `exec` takes it nor over the whole acceptance edge. -/
def Obligations.NotReadyEndsTimedCommands : Prop :=
  ∀ (i : Instr) (s : State), i.timed = true → s.ready = false →
    exec i s = .next { s with err := 4 } ∧
    ∀ (p : Params) (x : Pins), accepts x s = true → decode x.cmd = .command i →
      tickEdge p x s = .next { s with err := 4, now := s.now + 1 }

/-- What accepting any of the eight commands leaves alone (10_state.md R21, R23, R27, R38; 20_memory.md R51):
`RESULT`, the time and the host always; `SAMP` always; `CFGERR`, `LINE_ID` and `READY` but for `INIT`; every pad but
the one of `padTarget`; and the trace only grows. -/
def Obligations.AcceptanceFrame : Prop :=
  ∀ (i : Instr) (s t : State), exec i s = .next t →
    t.result = s.result ∧ t.samp = s.samp ∧ t.now = s.now ∧ t.host = s.host ∧
    ((∀ id, i ≠ .init id) → t.cfgerr = s.cfgerr ∧ t.lineId = s.lineId ∧ t.ready = s.ready) ∧
    (i.timed = false → t.busy = s.busy ∧ t.op = s.op ∧ t.phase = s.phase ∧ t.cnt = s.cnt ∧ t.bitidx = s.bitidx ∧
      t.sh = s.sh) ∧
    (∀ a, padTarget i s ≠ some a → t.pad a = s.pad a) ∧
    ∃ new, t.trace = s.trace ++ new

/-- 60_exceptions.md R170: `CONFIG_ERROR` comes from a rejected `INIT` and from nothing else, and the host reads the
platform's error value unchanged. -/
def Obligations.ConfigErrorPropagated : Prop :=
  (∀ (p : Params) (id : LineId) (e : ConfigError) (s : State), p.platform id = .err e →
    (accept p (.init id) s).err = 1 ∧ (accept p (.init id) s).cfgerr = e ∧ (accept p (.init id) s).ready = false ∧
    (accept p (.init id) s).trace = s.trace ++ [⟨s.now, .configure id (.err e)⟩] ∧
    cfgerrPort p (accept p (.init id) s) = e) ∧
  (∀ (p : Params) (i : Instr) (s : State), (∀ id, i ≠ .init id) → (accept p i s).err ≠ 1)

/-! ### The clock edge -/

/-- 40_execution_model.md R106, R107: when the pins carry a word that decodes to a command and the block is idle, the
step is `exec` of that command on the state after the host has moved on, one edge later. The host's queue and
`withFetchWord` are the model's own (DESIGN CHOICE, notes/assumptions/15.md). -/
def Obligations.StepRunsDecodedInstruction : Prop :=
  (∀ (s : State) (i : Instr), accepts (pinsNow s) s = true → decode (pinsNow s).cmd = .command i →
    step s = onNext State.tick (exec i s.hostMoved)) ∧
  (∀ (s : State) (nbits w : Nat) (i : Instr), decodeTableWord nbits w = some i →
    step (s.withFetchWord nbits w) = onNext State.tick (exec i { s with busy := false }))

/-- 40_execution_model.md R118, R106: a run's command is presented at the first edge with `BUSY = 0` once its idle
edges have passed; an idle edge changes nothing but the time and the host's count. The host's queue is the model's own
(DESIGN CHOICE, notes/assumptions/15.md). -/
def Obligations.RunPresentsCommand : Prop :=
  ∀ (s : State) (gap : Nat) (w : Word) (r : List HostMove), s.host = .command gap w :: r →
    (s.busy = false → gap = 0 → step s = onNext State.tick (acceptWord exec w { s with host := r })) ∧
    (s.busy = false → ∀ g, gap = g + 1 →
      step s = .next { s with host := .command g w :: r, now := s.now + 1 }) ∧
    (s.busy = true → step s = onNext State.tick (sequencerEdge Config.params s))

/-- 40_execution_model.md R106: a word is accepted exactly when `hreset = 0`, `BUSY = 0` and `cmd_valid = 1`; otherwise
`cmd_valid` and `cmd` have no effect of any kind. -/
def Obligations.AcceptedExactlyWhen : Prop :=
  ∀ (p : Params) (x : Pins) (s : State),
    (x.hreset = false → s.busy = false → x.cmdValid = true →
      tickEdge p x s = onNext State.tick (acceptWord (fun i t => .next (accept p i t)) x.cmd s)) ∧
    (s.busy = true → ∀ v w, tickEdge p { x with cmdValid := v, cmd := w } s = tickEdge p x s) ∧
    (x.hreset = true → ∀ v w, tickEdge p { x with cmdValid := v, cmd := w } s = tickEdge p x s) ∧
    (x.hreset = false → s.busy = false → x.cmdValid = false → tickEdge p x s = .next { s with now := s.now + 1 })

/-- 60_exceptions.md R179: the one code that an accepted word leaves in `ERR`, in the order of the causes; and
`hreset` overrides acceptance, whatever the word. -/
def Obligations.ErrorPriority : Prop :=
  (∀ (p : Params) (x : Pins) (s : State), accepts x s = true → ∃ t, tickEdge p x s = .next t ∧
    t.err = match decode x.cmd with
      | .illegal _ => 2
      | .command .ppEnable => 3
      | .command .ppDisable => 3
      | .command (.init id) => if p.platform id = .ok then 0 else 1
      | .command _ => if s.ready then 0 else 4) ∧
  (∀ (p : Params) (x : Pins) (s : State), x.hreset = true → s.busy = false →
    tickEdge p x s = .next (hardReset p s).tick ∧ (hardReset p s).err = 0)

/-- 40_execution_model.md R109: the ten rows of the phase table, with the waits in microseconds. -/
def Obligations.PhaseTableRows : Prop :=
  phaseTable .writeSlot 0 true = ⟨[.dirOut, .lvlLo], 6⟩ ∧ phaseTable .writeSlot 1 true = ⟨[.lvlHi], 64⟩ ∧
  phaseTable .writeSlot 0 false = ⟨[.dirOut, .lvlLo], 60⟩ ∧ phaseTable .writeSlot 1 false = ⟨[.lvlHi], 10⟩ ∧
  ∀ b, phaseTable .readSlot 0 b = ⟨[.dirOut, .lvlLo], 6⟩ ∧ phaseTable .readSlot 1 b = ⟨[.lvlHi, .dirIn], 9⟩ ∧
    phaseTable .readSlot 2 b = ⟨[.sample], 55⟩ ∧ phaseTable .resetSeq 0 b = ⟨[.dirOut, .lvlLo], 480⟩ ∧
    phaseTable .resetSeq 1 b = ⟨[.lvlHi, .dirIn], 70⟩ ∧ phaseTable .resetSeq 2 b = ⟨[.sample], 410⟩

/-- 40_execution_model.md R107: `Accept(w)`, check by check, for every state of an idle block and every word; a command
that returns before `BUSY <- 1` leaves `BUSY = 0`. -/
def Obligations.AcceptanceRule : Prop :=
  ∀ (p : Params) (x : Pins) (s : State), accepts x s = true → ∃ t, tickEdge p x s = .next t.tick ∧
    (∀ why, decode x.cmd = .illegal why → t = { s with err := 2 }) ∧
    (decode x.cmd = .command .ppEnable ∨ decode x.cmd = .command .ppDisable → t = { s with err := 3 }) ∧
    (∀ id, decode x.cmd = .command (.init id) → t = acceptInit p id s ∧ t.busy = false) ∧
    (∀ i, decode x.cmd = .command i → i.timed = true → s.ready = false → t = { s with err := 4 }) ∧
    (∀ i, decode x.cmd = .command i → i.timed = true → s.ready = true → ∃ k, kindOf (opField x.cmd) = some k ∧
      t = enter p k { s with
        err := 0, op := opField x.cmd,
        sh := (if opField x.cmd = 1 ∨ opField x.cmd = 3 then argField x.cmd else 0x00),
        bitidx := 0, phase := 0, busy := true } ∧ t.busy = true)

/-- 40_execution_model.md R110: every case of an edge with `hreset = 0`, and the edges a phase lasts: entered with
`CNT = N`, the edge that finds `CNT = 1` is the N-th after. -/
def Obligations.SequencerEdgeCases : Prop :=
  (∀ (p : Params) (x : Pins) (s : State), x.hreset = false → s.busy = false →
    (x.cmdValid = true →
      tickEdge p x s = onNext State.tick (acceptWord (fun i t => .next (accept p i t)) x.cmd s)) ∧
    (x.cmdValid = false → tickEdge p x s = .next s.tick)) ∧
  (∀ (p : Params) (x : Pins) (s : State) (k : SlotKind), x.hreset = false → s.busy = true → kindOf s.op = some k →
    (1 < s.cnt → tickEdge p x s = .next { s with cnt := s.cnt - 1, now := s.now + 1 }) ∧
    (s.cnt = 1 → s.phase < lastPhase k → tickEdge p x s = .next (enter p k { s with phase := s.phase + 1 }).tick) ∧
    (s.cnt = 1 → ¬ s.phase < lastPhase k → (s.op = 3 ∨ s.op = 4) → s.bitidx < 7 →
      tickEdge p x s = .next
        (enter p k { s with sh := (if s.op = 3 then s.sh >>> 1 else s.sh), bitidx := s.bitidx + 1, phase := 0 }).tick) ∧
    (s.cnt = 1 → ¬ s.phase < lastPhase k → ¬ ((s.op = 3 ∨ s.op = 4) ∧ s.bitidx < 7) →
      tickEdge p x s = .next (complete s).tick)) ∧
  (∀ (p : Params) (xs : List Pins) (s : State), noReset xs = true → s.busy = true → xs.length + 1 = s.cnt →
    runPins p xs s = .next { s with cnt := 1, now := s.now + xs.length })

/-- 40_execution_model.md R104: a wait emits its event and loads `CNT` with its edges, exactly under `exact` and never
fewer under `at_least`; while `CNT` counts down to 1 the block does nothing else, whatever the host presents. How an
`at_least` duration is drawn is the model's choice (DESIGN CHOICE, notes/assumptions/16.md). -/
def Obligations.WaitCountsItsEdges : Prop :=
  (∀ (p : Params) (n : Nat) (s : State), (beginWait p n s).trace = s.trace ++ [⟨s.now, .wait n⟩] ∧
    n * p.ticksPerUs ≤ (beginWait p n s).cnt ∧ (p.delay = .exact → (beginWait p n s).cnt = n * p.ticksPerUs)) ∧
  (∀ (p : Params) (xs : List Pins) (s : State), noReset xs = true → s.busy = true → xs.length < s.cnt →
    runPins p xs s = .next { s with cnt := s.cnt - xs.length, now := s.now + xs.length })

/-- 40_execution_model.md R113: completion, at the edge that ends the last phase of the last slot: `RESULT` by
operation, `BUSY <- 0`, nothing else; and at the next edge a new word can be accepted. -/
def Obligations.CompletionWritesResult : Prop :=
  ∀ (p : Params) (x : Pins) (s : State) (k : SlotKind), x.hreset = false → s.busy = true → s.cnt = 1 →
    kindOf s.op = some k → s.phase = lastPhase k → (s.op = 3 ∨ s.op = 4 → s.bitidx = 7) →
    ∃ t, tickEdge p x s = .next t ∧ { t with result := s.result } = { s with busy := false, now := s.now + 1 } ∧
      (s.op = 1 ∨ s.op = 3 → t.result = s.result) ∧
      (s.op = 2 → t.result = if s.samp then 1 else 0) ∧
      (s.op = 4 → t.result = s.sh) ∧
      (s.op = 5 → t.result = if s.samp then 0 else 1) ∧
      ∀ y : Pins, y.hreset = false → y.cmdValid = true → accepts y t = true

/-- 40_execution_model.md R114, 10_state.md R38: what an edge with `BUSY = 1` leaves alone. Only the pad of the bus
line can change, `RESULT` only at completion. -/
def Obligations.SequencerFrame : Prop :=
  ∀ (p : Params) (x : Pins) (s t : State), x.hreset = false → s.busy = true → tickEdge p x s = .next t →
    t.lineId = s.lineId ∧ t.ready = s.ready ∧ t.err = s.err ∧ t.cfgerr = s.cfgerr ∧ t.op = s.op ∧ t.host = s.host ∧
    (t.busy = true → t.result = s.result) ∧ (t.busy = false → t.pads = s.pads ∧ t.trace = s.trace) ∧
    ∀ a, a ≠ s.lineId → t.pad a = s.pad a

/-- 10_state.md R23: everything that writes `READY`, and its reset value. -/
def Obligations.ReadyWrittenOnlyBy : Prop :=
  State.reset.ready = false ∧
  ∀ (p : Params) (x : Pins) (s t : State), tickEdge p x s = .next t →
    t.ready = if x.hreset then false
      else match accepts x s, decode x.cmd with
        | true, .command (.init id) => decide (p.platform id = .ok)
        | _, _ => s.ready

/-- 10_state.md R27, R21: `RESULT` changes only at `HRESET` and at the completion edge of `READ_BIT`, `READ_BYTE` or
`OW_RESET`; `LINE_ID` only at `HRESET` and at an accepted `INIT`. -/
def Obligations.ResultAndLineIdWrittenOnlyBy : Prop :=
  ∀ (p : Params) (x : Pins) (s t : State), tickEdge p x s = .next t →
    (t.result ≠ s.result → x.hreset = true ∨
      (s.busy = true ∧ t.busy = false ∧ (s.op = 2 ∨ s.op = 4 ∨ s.op = 5))) ∧
    (t.lineId ≠ s.lineId → x.hreset = true ∨ (accepts x s = true ∧ ∃ id, decode x.cmd = .command (.init id)))

/-- 40_execution_model.md R101, R103, R66: an edge only appends to the trace, every event it appends carries that
edge's time, and time moves by one edge. Trace and time are fields of the model's own (DESIGN CHOICE,
notes/assumptions/14.md). -/
def Obligations.TraceOnlyGrows : Prop :=
  ∀ (p : Params) (x : Pins) (s t : State), tickEdge p x s = .next t →
    t.now = s.now + 1 ∧ ∃ new, t.trace = s.trace ++ new ∧ ∀ e ∈ new, e.time = s.now

/-! ### The line -/

/-- 20_memory.md R55: `LineDir` writes the direction, records the call, takes no time; a pad turned to Input does not
pull its line low, whatever `out` holds. -/
def Obligations.LineDirEffect : Prop :=
  ∀ (id : LineId) (d : Direction) (s : State),
    (lineDir id d s).pad id = { s.pad id with dir := d } ∧
    (∀ a, a ≠ id → (lineDir id d s).pad a = s.pad a) ∧
    { lineDir id d s with pads := s.pads } = { s with trace := s.trace ++ [⟨s.now, .dir id d⟩] } ∧
    (d = .input → drives (lineDir id d s) id = false)

/-- 20_memory.md R56: `LineLevel` writes the output latch, records the call, takes no time, and leaves the direction; on
a configured pad that is an output, Low is what makes the block drive. -/
def Obligations.LineLevelEffect : Prop :=
  ∀ (id : LineId) (l : Level) (s : State),
    (lineLevel id l s).pad id = { s.pad id with out := l } ∧
    (∀ a, a ≠ id → (lineLevel id l s).pad a = s.pad a) ∧
    { lineLevel id l s with pads := s.pads } = { s with trace := s.trace ++ [⟨s.now, .level id l⟩] } ∧
    ((s.pad id).mode = .bidirOpenDrain → (s.pad id).dir = .output →
      (drives (lineLevel id l s) id = true ↔ l = .low))

/-- 20_memory.md R57: `LineSample` returns the oracle's answer and records it, once, and changes nothing else. The
oracle is asked with the trace and the index of the sample, which R60 names, and with the time and the line of the
sample: the form of the query is the model's choice (DESIGN CHOICE, notes/assumptions/17.md). -/
def Obligations.LineSampleEffect : Prop :=
  ∀ (p : Params) (id : LineId) (s : State),
    lineSample p id s = (p.oracle ⟨s.trace, sampleCount s.trace, s.now, id⟩,
      { s with trace := s.trace ++ [⟨s.now, .sample id (p.oracle ⟨s.trace, sampleCount s.trace, s.now, id⟩)⟩] })

/-- 40_execution_model.md R102, 10_state.md R35, R36: the `SAMPLE` action stores the raw level in `SAMP`, and shifts it
into bit 7 of `SH` for `READ_BYTE` only. -/
def Obligations.SampleActionEffect : Prop :=
  ∀ (p : Params) (s : State),
    (perform p .sample s).samp = (lineSample p s.lineId s).1.bit ∧
    (s.op = 4 → (perform p .sample s).sh = BitVec.ofBool (lineSample p s.lineId s).1.bit ++ s.sh.extractLsb' 1 7) ∧
    (s.op ≠ 4 → (perform p .sample s).sh = s.sh) ∧
    { perform p .sample s with samp := s.samp, sh := s.sh } = (lineSample p s.lineId s).2

/-- 20_memory.md R58: when the block pulls a line low, and the two ways it releases it. -/
def Obligations.DrivesExactlyWhen : Prop :=
  ∀ (s : State) (id : LineId),
    (drives s id = true ↔ (s.pad id).mode = .bidirOpenDrain ∧ (s.pad id).dir = .output ∧ (s.pad id).out = .low) ∧
    ((s.pad id).dir = .output → (s.pad id).out = .high → drives s id = false)

/-- 20_memory.md R59, R60: the level of a line under an environment, which answers for each line on its own, and that
a sample of an undriven line is that level. The environment is the model's form of the spec's oracle (DESIGN CHOICE,
notes/assumptions/17.md). -/
def Obligations.LineLevelRule : Prop :=
  ∀ (env : Environment) (s : State) (id : LineId),
    (drives s id = true → lineLevelAt env s id = .low) ∧
    (env.pullsLow (s.query id) = true → lineLevelAt env s id = .low) ∧
    (drives s id = false → env.pullsLow (s.query id) = false → env.pullUp (s.query id) = true →
      lineLevelAt env s id = .high) ∧
    (drives s id = false → env.pullsLow (s.query id) = false → env.pullUp (s.query id) = false →
      lineLevelAt env s id = env.floating (s.query id)) ∧
    (∀ p : Params, p.oracle = env.oracle → drives s id = false → (lineSample p id s).1 = lineLevelAt env s id)

/-- 20_memory.md R60 (the spec derives it from R58 and R109): at every edge from a state of the invariant, a sample is
taken on the bus line only, while its pad's direction is Input and the block does not drive it. -/
def Obligations.SamplesOnlyUndriven : Prop :=
  ∀ (p : Params) (x : Pins) (s t : State), Inv p s → tickEdge p x s = .next t →
    ∀ (time : Nat) (id : LineId) (l : Level), ⟨time, .sample id l⟩ ∈ t.trace.drop s.trace.length →
      id = s.lineId ∧ (s.pad id).dir = .input ∧ drives s id = false ∧ s.busy = true

/-- 42_bit_transport.md R131, 70_reset_and_hazards.md R217: while a command is in flight the block pulls the bus line
low exactly in phase 0. -/
def Obligations.DrivesExactlyInPhaseZero : Prop :=
  ∀ (p : Params) (s : State), Inv p s → s.busy = true → (drives s s.lineId = true ↔ s.phase = 0)

/-! ### Reset, status, invariant -/

/-- 70_reset_and_hazards.md R201, R202, R200 while idle: every register takes its reset value (`CFGERR`, unspecified,
apart), the pads, the trace and the host are untouched, and no event is recorded. -/
def Obligations.HresetWhileIdle : Prop :=
  (∀ (p : Params) (x : Pins) (s : State), x.hreset = true → s.busy = false → ∃ t, tickEdge p x s = .next t ∧
    t.lineId = 0 ∧ t.ready = false ∧ t.busy = false ∧ t.err = 0 ∧ t.result = 0 ∧ statusByte t = 0 ∧ t.op = 0 ∧
    t.phase = 0 ∧ t.cnt = 0 ∧ t.bitidx = 0 ∧ t.sh = 0 ∧ t.samp = false ∧
    t.pads = s.pads ∧ t.trace = s.trace ∧ t.host = s.host ∧ ∀ id, drives t id = drives s id) ∧
  statusByte State.reset = 0 ∧
  State.reset.lineId = 0 ∧ State.reset.ready = false ∧ State.reset.busy = false ∧ State.reset.err = 0 ∧
  State.reset.result = 0 ∧ State.reset.op = 0 ∧ State.reset.phase = 0 ∧ State.reset.cnt = 0 ∧
  State.reset.bitidx = 0 ∧ State.reset.sh = 0 ∧ State.reset.samp = false

/-- 70_reset_and_hazards.md R203: the model refuses an edge with `hreset = 1` and `BUSY = 1`. -/
def Obligations.HresetWhileBusyRefused : Prop :=
  ∀ (p : Params) (x : Pins) (s : State), x.hreset = true → s.busy = true →
    tickEdge p x s = .refused .hresetWhileBusy

/-- 10_state.md R28: the four fields of `STATUS`, and its reset value. -/
def Obligations.StatusPacking : Prop :=
  (∀ s : State, (statusByte s).getLsbD 0 = s.busy ∧ (statusByte s).getLsbD 1 = s.ready ∧
    (statusByte s).extractLsb' 2 3 = s.err ∧ (statusByte s).extractLsb' 5 3 = 0#3) ∧
  statusByte State.reset = 0x00

/-- The invariant holds right after reset, whatever the parameters. That the reset state lists no pad is the model's
choice (DESIGN CHOICE, notes/assumptions/8.md). -/
def Obligations.InvAtReset : Prop := ∀ p : Params, Inv p State.reset

/-- Every step keeps the invariant: the ranges of 10_state.md R43 (which the spec derives), the bounds of `CNT`, the
canonical form of the pads, the attributes of the bus line's pad while `READY = 1`, and its direction and level in
each phase. -/
def Obligations.StepKeepsInv : Prop :=
  ∀ s t : State, Inv Config.params s → step s = .next t → Inv Config.params t

/-- From a state of the invariant, for any parameters, an edge at which the host keeps its duty leads to a next state
that has the invariant: the machine never faults and is never stuck (60_exceptions.md R192). -/
def Obligations.DutifulEdgesAdvance : Prop :=
  ∀ (p : Params) (x : Pins) (s : State), Inv p s → HostDuty x s → ∃ t, tickEdge p x s = .next t ∧ Inv p t

/-- 00_scope.md R7, 10_state.md R33: `CNT_W` is `ceil(log2(480 * TICKS_PER_US + 1))`, and with exact waits `CNT` fits
it. -/
def Obligations.CntFitsItsWidth : Prop :=
  ∀ p : Params,
    (2 ^ (p.cntWidth - 1) < 480 * p.ticksPerUs + 1 ∧ 480 * p.ticksPerUs + 1 ≤ 2 ^ p.cntWidth) ∧
    ∀ s : State, Inv p s → p.delay = .exact → s.cnt < 2 ^ p.cntWidth

/-! ### The operation level, and its agreement with the clock edges -/

/-- 40_execution_model.md R115: the table of the operation level, every row: the events appended, the duration, the
effect on the registers. `ls` are the answers to the command's samples, in order, and every sample recorded is the
oracle's answer to a query whose form is the model's choice (DESIGN CHOICE, notes/assumptions/17.md). -/
def Obligations.OperationTable : Prop :=
  (∀ (p : Params) (i : Instr) (s : State), i.timed = true → s.ready = true →
    ∃ (ls : List Level) (new : List Stamped), ls.length = sampleTotal i ∧
      (operate p i s).trace = s.trace ++ new ∧ new.map Stamped.event = tableTrace s.lineId i ls ∧
      answers p s.trace new ∧
      (operate p i s).result = tableResult i ls s.result ∧ (operate p i s).err = 0 ∧
      (p.delay = .exact → (operate p i s).now = s.now + durationUs i * p.ticksPerUs)) ∧
  (∀ (p : Params) (id : LineId) (s : State),
    (operate p (.init id) s).events = s.events ++ [.configure id (p.platform id)] ∧
    (operate p (.init id) s).now = s.now ∧ operate p (.init id) s = acceptInit p id s) ∧
  (∀ (p : Params) (s : State), operate p .ppEnable s = { s with err := 3 } ∧
    operate p .ppDisable s = { s with err := 3 }) ∧
  (∀ (p : Params) (i : Instr) (s : State), i.timed = true → s.ready = false → operate p i s = { s with err := 4 }) ∧
  (∀ (p : Params) (w : Word) (why : IllegalReason) (s : State), decode w = .illegal why →
    acceptWord (fun i t => .next (operate p i t)) w s = .next { s with err := 2 })

/-- 40_execution_model.md R116 (which the spec derives), for both delay models: from the acceptance of a timed command
by an idle, ready block, as many edges as the operation level takes, whatever the host presents meanwhile, lead to the
state the operation level gives, but for the sequencer registers; and at every edge before that the block is busy. -/
def Obligations.LevelsAgree : Prop :=
  ∀ (p : Params) (i : Instr) (s : State) (xs : List Pins), i.timed = true → s.ready = true → s.busy = false →
    noReset xs = true →
    (s.now + xs.length = (operate p i s).now →
      ∃ t, runPins p xs (accept p i s).tick = .next t ∧ t.observable = (operate p i s).tick.observable) ∧
    (s.now + xs.length < (operate p i s).now → ∃ t, runPins p xs (accept p i s).tick = .next t ∧ t.busy = true)

/-- 40_execution_model.md R115 and R116 together, for the machine's own `exec`: a timed command accepted by an idle,
ready block completes after exactly its duration in edges, with the trace and the result of the table, every sample
being the oracle's answer (to a query whose form is the model's choice, DESIGN CHOICE, notes/assumptions/17.md). -/
def Obligations.ExecRunsToTable : Prop :=
  ∀ (i : Instr) (s : State) (xs : List Pins), i.timed = true → s.ready = true → s.busy = false → noReset xs = true →
    xs.length = durationUs i * Config.params.ticksPerUs →
    ∃ (u t : State) (ls : List Level) (new : List Stamped), exec i s = .next u ∧
      runPins Config.params xs u.tick = .next t ∧
      ls.length = sampleTotal i ∧ t.busy = false ∧ t.err = 0 ∧ t.ready = true ∧ t.lineId = s.lineId ∧
      t.cfgerr = s.cfgerr ∧ t.trace = s.trace ++ new ∧ new.map Stamped.event = tableTrace s.lineId i ls ∧
      answers Config.params s.trace new ∧ t.result = tableResult i ls s.result

/-- 10_state.md R42 (which the spec derives): after a timed command the block does not pull the line low; a write ends
with the pad at Output and High, a read or a reset with Input and High; every other pad is as it was. -/
def Obligations.ReleasedAtCompletion : Prop :=
  ∀ (p : Params) (i : Instr) (s : State), i.timed = true → s.ready = true →
    drives (operate p i s) s.lineId = false ∧
    ((operate p i s).pad s.lineId) = { s.pad s.lineId with
      dir := (if 0 < sampleTotal i then .input else .output), out := .high } ∧
    ∀ a, a ≠ s.lineId → (operate p i s).pad a = s.pad a

/-- 43_byte_transport.md R142: `WRITE_BYTE v` is the eight `WRITE_BIT v[0]` to `WRITE_BIT v[7]`, and `READ_BYTE` the
eight `READ_BIT`, its `RESULT` made of their results. -/
def Obligations.BytesAreEightBits : Prop :=
  (∀ (p : Params) (v : Byte) (s : State),
    (bitsLsbFirst v).foldl (fun t b => operate p (.writeBit b) t) s = operate p (.writeByte v) s) ∧
  (∀ (p : Params) (s : State), s.ready = true →
    { operate p .readByte s with result := s.result } = { (operate p .readBit)^[8] s with result := s.result } ∧
    ∀ k < 8, (operate p .readByte s).result.getLsbD k = ((operate p .readBit)^[k + 1] s).result.getLsbD 0)

/-- 43_byte_transport.md R145: the round-trip law under the test device Loopback, from every ready state in which the
device holds nothing. The device is the model's reading of 95_test_vectors.md section 1 (DESIGN CHOICE,
notes/assumptions/20.md). -/
def Obligations.LoopbackRoundTrip : Prop :=
  ∀ (p : Params) (v : Byte) (s : State), p.oracle = loopbackOracle → s.ready = true → loopQueue [] s.events = [] →
    (operate p .readByte (operate p (.writeByte v) s)).result = v

/-- 44_reset_presence.md R151, R150, R154, 20_memory.md R61: `OW_RESET` never reports an error and sends one pulse;
without a device it answers 0 and `READ_BIT` answers 1; with a presence responder it answers 1. The environments are
the model's form of the spec's premises (DESIGN CHOICE, notes/assumptions/17.md). -/
def Obligations.PresenceOutcome : Prop :=
  ∀ (p : Params) (s : State), s.ready = true →
    (operate p .owReset s).err = 0 ∧
    (operate p .owReset s).events.count (.level s.lineId .low) = s.events.count (.level s.lineId .low) + 1 ∧
    ∀ env : Environment, p.oracle = env.oracle →
      (NoDevice env → (operate p .owReset s).result = 0 ∧ (operate p .readBit s).result = 1) ∧
      (PresenceResponder p env → (operate p .owReset s).result = 1)

/-- 44_reset_presence.md R152, R150, R154, 40_execution_model.md R109: one sample decides. `RESULT` of `OW_RESET` is the
inverted answer to the one query made at the end of the settle wait, with exact waits 550 microseconds after the start
of the pulse; another oracle that answers alike there gives the same `RESULT`; and under an environment a device counts
exactly if the line reads Low at that instant, whatever it does before or after, and for whatever reason it is Low. The
form of the query is the model's choice (DESIGN CHOICE, notes/assumptions/17.md). -/
def Obligations.OneSampleDecides : Prop :=
  ∀ (p : Params) (s : State), s.ready = true →
    (presenceQuery p s).atPresenceSample p = true ∧
    (p.delay = .exact → (presenceQuery p s).time = s.now + 550 * p.ticksPerUs) ∧
    (operate p .owReset s).result = (if p.oracle (presenceQuery p s) = .low then 1 else 0) ∧
    (∀ o : SampleQuery → Level, o (presenceQuery p s) = p.oracle (presenceQuery p s) →
      (operate { p with oracle := o } .owReset s).result = (operate p .owReset s).result) ∧
    ∀ env : Environment, p.oracle = env.oracle →
      ((operate p .owReset s).result = 1 ↔ env.pullsLow (presenceQuery p s) = true ∨
        (env.pullUp (presenceQuery p s) = false ∧ env.floating (presenceQuery p s) = .low))

/-- 20_memory.md R60, 40_execution_model.md R114: what samples return steers nothing. Two states that differ at most in
sampled values, run over one edge with the same pins under any two oracles, stop alike or go on to states that again
differ at most in sampled values. -/
def Obligations.SamplesSteerNothing : Prop :=
  ∀ (p : Params) (o : SampleQuery → Level) (x : Pins) (s t : State), SameButSamples s t →
    (∀ s', tickEdge p x s = .next s' →
      ∃ t', tickEdge { p with oracle := o } x t = .next t' ∧ SameButSamples s' t') ∧
    (∀ f, tickEdge p x s = .fault f → tickEdge { p with oracle := o } x t = .fault f) ∧
    (∀ r, tickEdge p x s = .refused r → tickEdge { p with oracle := o } x t = .refused r)
end

