-- ==== Sys2Proof/Laws/State.lean ====
section
/-! SUPPORT. One lemma per field per update of the state, all true by unfolding, so that no later proof unfolds a
record update. -/

namespace Sys2Proof.Machine

@[simp] theorem State.emit_lineId (e : Event) (s : State) : (s.emit e).lineId = s.lineId := rfl
@[simp] theorem State.emit_ready (e : Event) (s : State) : (s.emit e).ready = s.ready := rfl
@[simp] theorem State.emit_busy (e : Event) (s : State) : (s.emit e).busy = s.busy := rfl
@[simp] theorem State.emit_err (e : Event) (s : State) : (s.emit e).err = s.err := rfl
@[simp] theorem State.emit_cfgerr (e : Event) (s : State) : (s.emit e).cfgerr = s.cfgerr := rfl
@[simp] theorem State.emit_result (e : Event) (s : State) : (s.emit e).result = s.result := rfl
@[simp] theorem State.emit_op (e : Event) (s : State) : (s.emit e).op = s.op := rfl
@[simp] theorem State.emit_phase (e : Event) (s : State) : (s.emit e).phase = s.phase := rfl
@[simp] theorem State.emit_cnt (e : Event) (s : State) : (s.emit e).cnt = s.cnt := rfl
@[simp] theorem State.emit_bitidx (e : Event) (s : State) : (s.emit e).bitidx = s.bitidx := rfl
@[simp] theorem State.emit_sh (e : Event) (s : State) : (s.emit e).sh = s.sh := rfl
@[simp] theorem State.emit_samp (e : Event) (s : State) : (s.emit e).samp = s.samp := rfl
@[simp] theorem State.emit_pads (e : Event) (s : State) : (s.emit e).pads = s.pads := rfl
@[simp] theorem State.emit_trace (e : Event) (s : State) : (s.emit e).trace = s.trace ++ [⟨s.now, e⟩] := rfl
@[simp] theorem State.emit_now (e : Event) (s : State) : (s.emit e).now = s.now := rfl
@[simp] theorem State.emit_host (e : Event) (s : State) : (s.emit e).host = s.host := rfl

@[simp] theorem State.setPad_lineId (id : LineId) (v : Pad) (s : State) : (s.setPad id v).lineId = s.lineId := rfl
@[simp] theorem State.setPad_ready (id : LineId) (v : Pad) (s : State) : (s.setPad id v).ready = s.ready := rfl
@[simp] theorem State.setPad_busy (id : LineId) (v : Pad) (s : State) : (s.setPad id v).busy = s.busy := rfl
@[simp] theorem State.setPad_err (id : LineId) (v : Pad) (s : State) : (s.setPad id v).err = s.err := rfl
@[simp] theorem State.setPad_cfgerr (id : LineId) (v : Pad) (s : State) : (s.setPad id v).cfgerr = s.cfgerr := rfl
@[simp] theorem State.setPad_result (id : LineId) (v : Pad) (s : State) : (s.setPad id v).result = s.result := rfl
@[simp] theorem State.setPad_op (id : LineId) (v : Pad) (s : State) : (s.setPad id v).op = s.op := rfl
@[simp] theorem State.setPad_phase (id : LineId) (v : Pad) (s : State) : (s.setPad id v).phase = s.phase := rfl
@[simp] theorem State.setPad_cnt (id : LineId) (v : Pad) (s : State) : (s.setPad id v).cnt = s.cnt := rfl
@[simp] theorem State.setPad_bitidx (id : LineId) (v : Pad) (s : State) : (s.setPad id v).bitidx = s.bitidx := rfl
@[simp] theorem State.setPad_sh (id : LineId) (v : Pad) (s : State) : (s.setPad id v).sh = s.sh := rfl
@[simp] theorem State.setPad_samp (id : LineId) (v : Pad) (s : State) : (s.setPad id v).samp = s.samp := rfl
@[simp] theorem State.setPad_pads (id : LineId) (v : Pad) (s : State) : (s.setPad id v).pads = Memory.write s.pads id v := rfl
@[simp] theorem State.setPad_trace (id : LineId) (v : Pad) (s : State) : (s.setPad id v).trace = s.trace := rfl
@[simp] theorem State.setPad_now (id : LineId) (v : Pad) (s : State) : (s.setPad id v).now = s.now := rfl
@[simp] theorem State.setPad_host (id : LineId) (v : Pad) (s : State) : (s.setPad id v).host = s.host := rfl

@[simp] theorem raise_lineId (c : ErrCode) (s : State) : (raise c s).lineId = s.lineId := rfl
@[simp] theorem raise_ready (c : ErrCode) (s : State) : (raise c s).ready = s.ready := rfl
@[simp] theorem raise_busy (c : ErrCode) (s : State) : (raise c s).busy = s.busy := rfl
@[simp] theorem raise_err (c : ErrCode) (s : State) : (raise c s).err = c.bits := rfl
@[simp] theorem raise_cfgerr (c : ErrCode) (s : State) : (raise c s).cfgerr = s.cfgerr := rfl
@[simp] theorem raise_result (c : ErrCode) (s : State) : (raise c s).result = s.result := rfl
@[simp] theorem raise_op (c : ErrCode) (s : State) : (raise c s).op = s.op := rfl
@[simp] theorem raise_phase (c : ErrCode) (s : State) : (raise c s).phase = s.phase := rfl
@[simp] theorem raise_cnt (c : ErrCode) (s : State) : (raise c s).cnt = s.cnt := rfl
@[simp] theorem raise_bitidx (c : ErrCode) (s : State) : (raise c s).bitidx = s.bitidx := rfl
@[simp] theorem raise_sh (c : ErrCode) (s : State) : (raise c s).sh = s.sh := rfl
@[simp] theorem raise_samp (c : ErrCode) (s : State) : (raise c s).samp = s.samp := rfl
@[simp] theorem raise_pads (c : ErrCode) (s : State) : (raise c s).pads = s.pads := rfl
@[simp] theorem raise_trace (c : ErrCode) (s : State) : (raise c s).trace = s.trace := rfl
@[simp] theorem raise_now (c : ErrCode) (s : State) : (raise c s).now = s.now := rfl
@[simp] theorem raise_host (c : ErrCode) (s : State) : (raise c s).host = s.host := rfl

@[simp] theorem State.tick_lineId  (s : State) : (s.tick).lineId = s.lineId := rfl
@[simp] theorem State.tick_ready  (s : State) : (s.tick).ready = s.ready := rfl
@[simp] theorem State.tick_busy  (s : State) : (s.tick).busy = s.busy := rfl
@[simp] theorem State.tick_err  (s : State) : (s.tick).err = s.err := rfl
@[simp] theorem State.tick_cfgerr  (s : State) : (s.tick).cfgerr = s.cfgerr := rfl
@[simp] theorem State.tick_result  (s : State) : (s.tick).result = s.result := rfl
@[simp] theorem State.tick_op  (s : State) : (s.tick).op = s.op := rfl
@[simp] theorem State.tick_phase  (s : State) : (s.tick).phase = s.phase := rfl
@[simp] theorem State.tick_cnt  (s : State) : (s.tick).cnt = s.cnt := rfl
@[simp] theorem State.tick_bitidx  (s : State) : (s.tick).bitidx = s.bitidx := rfl
@[simp] theorem State.tick_sh  (s : State) : (s.tick).sh = s.sh := rfl
@[simp] theorem State.tick_samp  (s : State) : (s.tick).samp = s.samp := rfl
@[simp] theorem State.tick_pads  (s : State) : (s.tick).pads = s.pads := rfl
@[simp] theorem State.tick_trace  (s : State) : (s.tick).trace = s.trace := rfl
@[simp] theorem State.tick_now  (s : State) : (s.tick).now = s.now + 1 := rfl
@[simp] theorem State.tick_host  (s : State) : (s.tick).host = s.host := rfl

@[simp] theorem State.hostMoved_lineId  (s : State) : (s.hostMoved).lineId = s.lineId := rfl
@[simp] theorem State.hostMoved_ready  (s : State) : (s.hostMoved).ready = s.ready := rfl
@[simp] theorem State.hostMoved_busy  (s : State) : (s.hostMoved).busy = s.busy := rfl
@[simp] theorem State.hostMoved_err  (s : State) : (s.hostMoved).err = s.err := rfl
@[simp] theorem State.hostMoved_cfgerr  (s : State) : (s.hostMoved).cfgerr = s.cfgerr := rfl
@[simp] theorem State.hostMoved_result  (s : State) : (s.hostMoved).result = s.result := rfl
@[simp] theorem State.hostMoved_op  (s : State) : (s.hostMoved).op = s.op := rfl
@[simp] theorem State.hostMoved_phase  (s : State) : (s.hostMoved).phase = s.phase := rfl
@[simp] theorem State.hostMoved_cnt  (s : State) : (s.hostMoved).cnt = s.cnt := rfl
@[simp] theorem State.hostMoved_bitidx  (s : State) : (s.hostMoved).bitidx = s.bitidx := rfl
@[simp] theorem State.hostMoved_sh  (s : State) : (s.hostMoved).sh = s.sh := rfl
@[simp] theorem State.hostMoved_samp  (s : State) : (s.hostMoved).samp = s.samp := rfl
@[simp] theorem State.hostMoved_pads  (s : State) : (s.hostMoved).pads = s.pads := rfl
@[simp] theorem State.hostMoved_trace  (s : State) : (s.hostMoved).trace = s.trace := rfl
@[simp] theorem State.hostMoved_now  (s : State) : (s.hostMoved).now = s.now := rfl
@[simp] theorem State.hostMoved_host  (s : State) : (s.hostMoved).host = hostAfter s := rfl

/-- The pads are read the same in two states with the same pads. -/
theorem State.pad_congr {s t : State} (h : s.pads = t.pads) (id : LineId) : s.pad id = t.pad id := by
  simp [State.pad, h]

@[simp] theorem State.pad_emit (e : Event) (s : State) (id : LineId) : (s.emit e).pad id = s.pad id := rfl
@[simp] theorem State.pad_tick (s : State) (id : LineId) : s.tick.pad id = s.pad id := rfl
@[simp] theorem State.pad_raise (c : ErrCode) (s : State) (id : LineId) : (raise c s).pad id = s.pad id := rfl
@[simp] theorem State.pad_hostMoved (s : State) (id : LineId) : s.hostMoved.pad id = s.pad id := rfl

/-- Mapping the next state gives a next state exactly when there was one. -/
theorem onNext_eq_next {f : State → State} {o : Host.Outcome State Fault Refusal} {t : State} :
    onNext f o = .next t ↔ ∃ u, o = .next u ∧ t = f u := by
  cases o <;> simp [onNext, eq_comm]

@[simp] theorem onNext_next (f : State → State) (s : State) : onNext f (.next s) = .next (f s) := rfl

end Sys2Proof.Machine
end

