-- ==== Sys2Proof/Laws/Memory.lean ====
section
/-! SUPPORT. The laws of the pads as memory: a read after a write, and the canonical form kept by every operation. -/

namespace Sys2Proof.Machine

theorem Memory.lookup_insert_same (k : Nat) (v : Pad) (m : Memory) : Memory.lookup k (Memory.insert k v m) = v := by
  induction m with
  | nil => simp [Memory.insert, Memory.lookup]
  | cons c r ih =>
    obtain ⟨a, x⟩ := c
    simp only [Memory.insert]
    split
    · next h => simp [Memory.lookup, Nat.ne_of_lt h, ih]
    · split <;> simp [Memory.lookup]

theorem Memory.lookup_insert_other {k j : Nat} (h : j ≠ k) (v : Pad) (m : Memory) :
    Memory.lookup j (Memory.insert k v m) = Memory.lookup j m := by
  induction m with
  | nil => simp [Memory.insert, Memory.lookup, h.symm]
  | cons c r ih =>
    obtain ⟨a, x⟩ := c
    simp only [Memory.insert]
    split
    · simp [Memory.lookup, ih]
    · split
      · next e => subst e; simp [Memory.lookup, h.symm]
      · simp [Memory.lookup, h.symm]

theorem Memory.lookup_erase_same (k : Nat) (m : Memory) : Memory.lookup k (Memory.erase k m) = Pad.untouched := by
  induction m with
  | nil => rfl
  | cons c r ih =>
    obtain ⟨a, x⟩ := c
    simp only [Memory.erase]
    split
    · exact ih
    · next h => simp [Memory.lookup, h, ih]

theorem Memory.lookup_erase_other {k j : Nat} (h : j ≠ k) (m : Memory) :
    Memory.lookup j (Memory.erase k m) = Memory.lookup j m := by
  induction m with
  | nil => rfl
  | cons c r ih =>
    obtain ⟨a, x⟩ := c
    simp only [Memory.erase]
    split
    · next e => subst e; simp [Memory.lookup, h.symm, ih]
    · simp [Memory.lookup, ih]

/-- A pad read back is the pad written. -/
@[simp] theorem Memory.read_write_same (m : Memory) (id : LineId) (v : Pad) :
    Memory.read (Memory.write m id v) id = v := by
  unfold Memory.read Memory.write
  split
  · next h => rw [Memory.lookup_erase_same, h]
  · exact Memory.lookup_insert_same _ _ _

/-- A write leaves every other pad alone. -/
theorem Memory.read_write_other {id j : LineId} (h : j ≠ id) (m : Memory) (v : Pad) :
    Memory.read (Memory.write m id v) j = Memory.read m j := by
  have hn : j.toNat ≠ id.toNat := fun e => h (BitVec.eq_of_toNat_eq e)
  unfold Memory.read Memory.write
  split
  · exact Memory.lookup_erase_other hn _
  · exact Memory.lookup_insert_other hn _ _

@[simp] theorem State.pad_setPad_same (s : State) (id : LineId) (v : Pad) : (s.setPad id v).pad id = v := by
  simp [State.pad]

theorem State.pad_setPad_other {id j : LineId} (h : j ≠ id) (s : State) (v : Pad) :
    (s.setPad id v).pad j = s.pad j := by
  simp [State.pad, Memory.read_write_other h]

theorem Memory.risesFrom_mono {lo lo' : Nat} (h : lo ≤ lo') (m : Memory) (hm : Memory.risesFrom lo' m = true) :
    Memory.risesFrom lo m = true := by
  cases m with
  | nil => rfl
  | cons c r =>
    obtain ⟨a, x⟩ := c
    simp only [Memory.risesFrom, Bool.and_eq_true, decide_eq_true_eq] at hm ⊢
    exact ⟨⟨⟨by omega, hm.1.1.2⟩, hm.1.2⟩, hm.2⟩

theorem Memory.risesFrom_insert {k : Nat} (hk : k < 256) {v : Pad} (hv : v ≠ Pad.untouched) (m : Memory) (lo : Nat)
    (hlo : lo ≤ k) (hm : Memory.risesFrom lo m = true) : Memory.risesFrom lo (Memory.insert k v m) = true := by
  induction m generalizing lo with
  | nil => simp [Memory.insert, Memory.risesFrom, hk, hv, hlo]
  | cons c r ih =>
    obtain ⟨a, x⟩ := c
    simp only [Memory.risesFrom, Bool.and_eq_true, decide_eq_true_eq] at hm
    obtain ⟨⟨⟨h1, h2⟩, h3⟩, h4⟩ := hm
    simp only [Memory.insert]
    split
    · next h => simp [Memory.risesFrom, h1, h2, h3, ih (a + 1) (by omega) h4]
    · split
      · next e => subst e; simp [Memory.risesFrom, h1, h2, hv, h4]
      · next h5 h6 => simp [Memory.risesFrom, hk, hv, hlo, h2, h3, h4, show k + 1 ≤ a by omega]

theorem Memory.risesFrom_erase (k : Nat) (m : Memory) (lo : Nat) (hm : Memory.risesFrom lo m = true) :
    Memory.risesFrom lo (Memory.erase k m) = true := by
  induction m generalizing lo with
  | nil => rfl
  | cons c r ih =>
    obtain ⟨a, x⟩ := c
    simp only [Memory.risesFrom, Bool.and_eq_true, decide_eq_true_eq] at hm
    obtain ⟨⟨⟨h1, h2⟩, h3⟩, h4⟩ := hm
    simp only [Memory.erase]
    split
    · exact Memory.risesFrom_mono (by omega) _ (ih _ h4)
    · simp [Memory.risesFrom, h1, h2, h3, ih _ h4]

/-- Writing a pad keeps the canonical form. -/
theorem Memory.wf_write {m : Memory} (h : Memory.wf m = true) (id : LineId) (v : Pad) :
    Memory.wf (Memory.write m id v) = true := by
  unfold Memory.wf Memory.write at *
  split
  · exact Memory.risesFrom_erase _ _ _ h
  · next hv => exact Memory.risesFrom_insert id.isLt hv _ _ (Nat.zero_le _) h

/-- The pads right after reset are in canonical form. -/
theorem Memory.wf_reset : Memory.wf State.reset.pads = true := rfl

end Sys2Proof.Machine
end

