-- ==== Sys2Proof/Laws/Ops.lean ====
section
/-! SUPPORT. What each shared operation can do: one lemma per field for the collaborator primitives, and the frame of
phase entry. -/

namespace Sys2Proof.Machine

/-! ### The primitives, field by field -/

@[simp] theorem lineDir_lineId (id : LineId) (d : Direction) (s : State) : (lineDir id d s).lineId = s.lineId := rfl
@[simp] theorem lineDir_ready (id : LineId) (d : Direction) (s : State) : (lineDir id d s).ready = s.ready := rfl
@[simp] theorem lineDir_busy (id : LineId) (d : Direction) (s : State) : (lineDir id d s).busy = s.busy := rfl
@[simp] theorem lineDir_err (id : LineId) (d : Direction) (s : State) : (lineDir id d s).err = s.err := rfl
@[simp] theorem lineDir_cfgerr (id : LineId) (d : Direction) (s : State) : (lineDir id d s).cfgerr = s.cfgerr := rfl
@[simp] theorem lineDir_result (id : LineId) (d : Direction) (s : State) : (lineDir id d s).result = s.result := rfl
@[simp] theorem lineDir_op (id : LineId) (d : Direction) (s : State) : (lineDir id d s).op = s.op := rfl
@[simp] theorem lineDir_phase (id : LineId) (d : Direction) (s : State) : (lineDir id d s).phase = s.phase := rfl
@[simp] theorem lineDir_cnt (id : LineId) (d : Direction) (s : State) : (lineDir id d s).cnt = s.cnt := rfl
@[simp] theorem lineDir_bitidx (id : LineId) (d : Direction) (s : State) : (lineDir id d s).bitidx = s.bitidx := rfl
@[simp] theorem lineDir_sh (id : LineId) (d : Direction) (s : State) : (lineDir id d s).sh = s.sh := rfl
@[simp] theorem lineDir_samp (id : LineId) (d : Direction) (s : State) : (lineDir id d s).samp = s.samp := rfl
@[simp] theorem lineDir_pads (id : LineId) (d : Direction) (s : State) : (lineDir id d s).pads = Memory.write s.pads id { s.pad id with dir := d } := rfl
@[simp] theorem lineDir_trace (id : LineId) (d : Direction) (s : State) : (lineDir id d s).trace = s.trace ++ [⟨s.now, .dir id d⟩] := rfl
@[simp] theorem lineDir_now (id : LineId) (d : Direction) (s : State) : (lineDir id d s).now = s.now := rfl
@[simp] theorem lineDir_host (id : LineId) (d : Direction) (s : State) : (lineDir id d s).host = s.host := rfl

@[simp] theorem lineLevel_lineId (id : LineId) (l : Level) (s : State) : (lineLevel id l s).lineId = s.lineId := rfl
@[simp] theorem lineLevel_ready (id : LineId) (l : Level) (s : State) : (lineLevel id l s).ready = s.ready := rfl
@[simp] theorem lineLevel_busy (id : LineId) (l : Level) (s : State) : (lineLevel id l s).busy = s.busy := rfl
@[simp] theorem lineLevel_err (id : LineId) (l : Level) (s : State) : (lineLevel id l s).err = s.err := rfl
@[simp] theorem lineLevel_cfgerr (id : LineId) (l : Level) (s : State) : (lineLevel id l s).cfgerr = s.cfgerr := rfl
@[simp] theorem lineLevel_result (id : LineId) (l : Level) (s : State) : (lineLevel id l s).result = s.result := rfl
@[simp] theorem lineLevel_op (id : LineId) (l : Level) (s : State) : (lineLevel id l s).op = s.op := rfl
@[simp] theorem lineLevel_phase (id : LineId) (l : Level) (s : State) : (lineLevel id l s).phase = s.phase := rfl
@[simp] theorem lineLevel_cnt (id : LineId) (l : Level) (s : State) : (lineLevel id l s).cnt = s.cnt := rfl
@[simp] theorem lineLevel_bitidx (id : LineId) (l : Level) (s : State) : (lineLevel id l s).bitidx = s.bitidx := rfl
@[simp] theorem lineLevel_sh (id : LineId) (l : Level) (s : State) : (lineLevel id l s).sh = s.sh := rfl
@[simp] theorem lineLevel_samp (id : LineId) (l : Level) (s : State) : (lineLevel id l s).samp = s.samp := rfl
@[simp] theorem lineLevel_pads (id : LineId) (l : Level) (s : State) : (lineLevel id l s).pads = Memory.write s.pads id { s.pad id with out := l } := rfl
@[simp] theorem lineLevel_trace (id : LineId) (l : Level) (s : State) : (lineLevel id l s).trace = s.trace ++ [⟨s.now, .level id l⟩] := rfl
@[simp] theorem lineLevel_now (id : LineId) (l : Level) (s : State) : (lineLevel id l s).now = s.now := rfl
@[simp] theorem lineLevel_host (id : LineId) (l : Level) (s : State) : (lineLevel id l s).host = s.host := rfl

@[simp] theorem lineSample_lineId (p : Params) (id : LineId) (s : State) : ((lineSample p id s).2).lineId = s.lineId := rfl
@[simp] theorem lineSample_ready (p : Params) (id : LineId) (s : State) : ((lineSample p id s).2).ready = s.ready := rfl
@[simp] theorem lineSample_busy (p : Params) (id : LineId) (s : State) : ((lineSample p id s).2).busy = s.busy := rfl
@[simp] theorem lineSample_err (p : Params) (id : LineId) (s : State) : ((lineSample p id s).2).err = s.err := rfl
@[simp] theorem lineSample_cfgerr (p : Params) (id : LineId) (s : State) : ((lineSample p id s).2).cfgerr = s.cfgerr := rfl
@[simp] theorem lineSample_result (p : Params) (id : LineId) (s : State) : ((lineSample p id s).2).result = s.result := rfl
@[simp] theorem lineSample_op (p : Params) (id : LineId) (s : State) : ((lineSample p id s).2).op = s.op := rfl
@[simp] theorem lineSample_phase (p : Params) (id : LineId) (s : State) : ((lineSample p id s).2).phase = s.phase := rfl
@[simp] theorem lineSample_cnt (p : Params) (id : LineId) (s : State) : ((lineSample p id s).2).cnt = s.cnt := rfl
@[simp] theorem lineSample_bitidx (p : Params) (id : LineId) (s : State) : ((lineSample p id s).2).bitidx = s.bitidx := rfl
@[simp] theorem lineSample_sh (p : Params) (id : LineId) (s : State) : ((lineSample p id s).2).sh = s.sh := rfl
@[simp] theorem lineSample_samp (p : Params) (id : LineId) (s : State) : ((lineSample p id s).2).samp = s.samp := rfl
@[simp] theorem lineSample_pads (p : Params) (id : LineId) (s : State) : ((lineSample p id s).2).pads = s.pads := rfl
@[simp] theorem lineSample_trace (p : Params) (id : LineId) (s : State) : ((lineSample p id s).2).trace = s.trace ++ [⟨s.now, .sample id (lineSample p id s).1⟩] := rfl
@[simp] theorem lineSample_now (p : Params) (id : LineId) (s : State) : ((lineSample p id s).2).now = s.now := rfl
@[simp] theorem lineSample_host (p : Params) (id : LineId) (s : State) : ((lineSample p id s).2).host = s.host := rfl

@[simp] theorem beginWait_lineId (p : Params) (n : Nat) (s : State) : (beginWait p n s).lineId = s.lineId := rfl
@[simp] theorem beginWait_ready (p : Params) (n : Nat) (s : State) : (beginWait p n s).ready = s.ready := rfl
@[simp] theorem beginWait_busy (p : Params) (n : Nat) (s : State) : (beginWait p n s).busy = s.busy := rfl
@[simp] theorem beginWait_err (p : Params) (n : Nat) (s : State) : (beginWait p n s).err = s.err := rfl
@[simp] theorem beginWait_cfgerr (p : Params) (n : Nat) (s : State) : (beginWait p n s).cfgerr = s.cfgerr := rfl
@[simp] theorem beginWait_result (p : Params) (n : Nat) (s : State) : (beginWait p n s).result = s.result := rfl
@[simp] theorem beginWait_op (p : Params) (n : Nat) (s : State) : (beginWait p n s).op = s.op := rfl
@[simp] theorem beginWait_phase (p : Params) (n : Nat) (s : State) : (beginWait p n s).phase = s.phase := rfl
@[simp] theorem beginWait_cnt (p : Params) (n : Nat) (s : State) : (beginWait p n s).cnt = waitTicks p s.trace.length n := rfl
@[simp] theorem beginWait_bitidx (p : Params) (n : Nat) (s : State) : (beginWait p n s).bitidx = s.bitidx := rfl
@[simp] theorem beginWait_sh (p : Params) (n : Nat) (s : State) : (beginWait p n s).sh = s.sh := rfl
@[simp] theorem beginWait_samp (p : Params) (n : Nat) (s : State) : (beginWait p n s).samp = s.samp := rfl
@[simp] theorem beginWait_pads (p : Params) (n : Nat) (s : State) : (beginWait p n s).pads = s.pads := rfl
@[simp] theorem beginWait_trace (p : Params) (n : Nat) (s : State) : (beginWait p n s).trace = s.trace ++ [⟨s.now, .wait n⟩] := rfl
@[simp] theorem beginWait_now (p : Params) (n : Nat) (s : State) : (beginWait p n s).now = s.now := rfl
@[simp] theorem beginWait_host (p : Params) (n : Nat) (s : State) : (beginWait p n s).host = s.host := rfl

@[simp] theorem delay_lineId (p : Params) (n : Nat) (s : State) : (delay p n s).lineId = s.lineId := rfl
@[simp] theorem delay_ready (p : Params) (n : Nat) (s : State) : (delay p n s).ready = s.ready := rfl
@[simp] theorem delay_busy (p : Params) (n : Nat) (s : State) : (delay p n s).busy = s.busy := rfl
@[simp] theorem delay_err (p : Params) (n : Nat) (s : State) : (delay p n s).err = s.err := rfl
@[simp] theorem delay_cfgerr (p : Params) (n : Nat) (s : State) : (delay p n s).cfgerr = s.cfgerr := rfl
@[simp] theorem delay_result (p : Params) (n : Nat) (s : State) : (delay p n s).result = s.result := rfl
@[simp] theorem delay_op (p : Params) (n : Nat) (s : State) : (delay p n s).op = s.op := rfl
@[simp] theorem delay_phase (p : Params) (n : Nat) (s : State) : (delay p n s).phase = s.phase := rfl
@[simp] theorem delay_cnt (p : Params) (n : Nat) (s : State) : (delay p n s).cnt = s.cnt := rfl
@[simp] theorem delay_bitidx (p : Params) (n : Nat) (s : State) : (delay p n s).bitidx = s.bitidx := rfl
@[simp] theorem delay_sh (p : Params) (n : Nat) (s : State) : (delay p n s).sh = s.sh := rfl
@[simp] theorem delay_samp (p : Params) (n : Nat) (s : State) : (delay p n s).samp = s.samp := rfl
@[simp] theorem delay_pads (p : Params) (n : Nat) (s : State) : (delay p n s).pads = s.pads := rfl
@[simp] theorem delay_trace (p : Params) (n : Nat) (s : State) : (delay p n s).trace = s.trace ++ [⟨s.now, .wait n⟩] := rfl
@[simp] theorem delay_now (p : Params) (n : Nat) (s : State) : (delay p n s).now = s.now + waitTicks p s.trace.length n := rfl
@[simp] theorem delay_host (p : Params) (n : Nat) (s : State) : (delay p n s).host = s.host := rfl

@[simp] theorem storeSample_lineId (l : Level) (s : State) : (storeSample l s).lineId = s.lineId := rfl
@[simp] theorem storeSample_ready (l : Level) (s : State) : (storeSample l s).ready = s.ready := rfl
@[simp] theorem storeSample_busy (l : Level) (s : State) : (storeSample l s).busy = s.busy := rfl
@[simp] theorem storeSample_err (l : Level) (s : State) : (storeSample l s).err = s.err := rfl
@[simp] theorem storeSample_cfgerr (l : Level) (s : State) : (storeSample l s).cfgerr = s.cfgerr := rfl
@[simp] theorem storeSample_result (l : Level) (s : State) : (storeSample l s).result = s.result := rfl
@[simp] theorem storeSample_op (l : Level) (s : State) : (storeSample l s).op = s.op := rfl
@[simp] theorem storeSample_phase (l : Level) (s : State) : (storeSample l s).phase = s.phase := rfl
@[simp] theorem storeSample_cnt (l : Level) (s : State) : (storeSample l s).cnt = s.cnt := rfl
@[simp] theorem storeSample_bitidx (l : Level) (s : State) : (storeSample l s).bitidx = s.bitidx := rfl
@[simp] theorem storeSample_sh (l : Level) (s : State) : (storeSample l s).sh = if s.op = 4#4 then shiftIn l.bit s.sh else s.sh := rfl
@[simp] theorem storeSample_samp (l : Level) (s : State) : (storeSample l s).samp = l.bit := rfl
@[simp] theorem storeSample_pads (l : Level) (s : State) : (storeSample l s).pads = s.pads := rfl
@[simp] theorem storeSample_trace (l : Level) (s : State) : (storeSample l s).trace = s.trace := rfl
@[simp] theorem storeSample_now (l : Level) (s : State) : (storeSample l s).now = s.now := rfl
@[simp] theorem storeSample_host (l : Level) (s : State) : (storeSample l s).host = s.host := rfl

@[simp] theorem complete_lineId  (s : State) : (complete s).lineId = s.lineId := rfl
@[simp] theorem complete_ready  (s : State) : (complete s).ready = s.ready := rfl
@[simp] theorem complete_busy  (s : State) : (complete s).busy = false := rfl
@[simp] theorem complete_err  (s : State) : (complete s).err = s.err := rfl
@[simp] theorem complete_cfgerr  (s : State) : (complete s).cfgerr = s.cfgerr := rfl
@[simp] theorem complete_result  (s : State) : (complete s).result = completionResult s := rfl
@[simp] theorem complete_op  (s : State) : (complete s).op = s.op := rfl
@[simp] theorem complete_phase  (s : State) : (complete s).phase = s.phase := rfl
@[simp] theorem complete_cnt  (s : State) : (complete s).cnt = s.cnt := rfl
@[simp] theorem complete_bitidx  (s : State) : (complete s).bitidx = s.bitidx := rfl
@[simp] theorem complete_sh  (s : State) : (complete s).sh = s.sh := rfl
@[simp] theorem complete_samp  (s : State) : (complete s).samp = s.samp := rfl
@[simp] theorem complete_pads  (s : State) : (complete s).pads = s.pads := rfl
@[simp] theorem complete_trace  (s : State) : (complete s).trace = s.trace := rfl
@[simp] theorem complete_now  (s : State) : (complete s).now = s.now := rfl
@[simp] theorem complete_host  (s : State) : (complete s).host = s.host := rfl

@[simp] theorem pad_lineDir_same (s : State) (id : LineId) (d : Direction) :
    (lineDir id d s).pad id = { s.pad id with dir := d } := by simp [State.pad, lineDir]

theorem pad_lineDir_other {id j : LineId} (h : j ≠ id) (s : State) (d : Direction) :
    (lineDir id d s).pad j = s.pad j := by simp [State.pad, lineDir, Memory.read_write_other h]

@[simp] theorem pad_lineLevel_same (s : State) (id : LineId) (l : Level) :
    (lineLevel id l s).pad id = { s.pad id with out := l } := by simp [State.pad, lineLevel]

theorem pad_lineLevel_other {id j : LineId} (h : j ≠ id) (s : State) (l : Level) :
    (lineLevel id l s).pad j = s.pad j := by simp [State.pad, lineLevel, Memory.read_write_other h]

@[simp] theorem pad_beginWait (p : Params) (n : Nat) (s : State) (id : LineId) :
    (beginWait p n s).pad id = s.pad id := rfl

@[simp] theorem pad_delay (p : Params) (n : Nat) (s : State) (id : LineId) : (delay p n s).pad id = s.pad id := rfl

@[simp] theorem pad_lineSample (p : Params) (L : LineId) (s : State) (id : LineId) :
    (lineSample p L s).2.pad id = s.pad id := rfl

@[simp] theorem pad_storeSample (l : Level) (s : State) (id : LineId) : (storeSample l s).pad id = s.pad id := rfl

@[simp] theorem pad_complete (s : State) (id : LineId) : (complete s).pad id = s.pad id := rfl

/-- A wait lasts at least its `n * TICKS_PER_US` edges. -/
theorem le_waitTicks (p : Params) (k n : Nat) : n * p.ticksPerUs ≤ waitTicks p k n := by
  unfold waitTicks; split <;> omega

/-- With exact waits it lasts exactly that. -/
theorem waitTicks_exact {p : Params} (h : p.delay = .exact) (k n : Nat) : waitTicks p k n = n * p.ticksPerUs := by
  simp [waitTicks, h]

/-! ### Configuration of a line -/

@[simp] theorem lineConfigure_lineId (p : Params) (id : LineId) (s : State) : ((lineConfigure p id s).2).lineId = s.lineId := rfl
@[simp] theorem lineConfigure_ready (p : Params) (id : LineId) (s : State) : ((lineConfigure p id s).2).ready = s.ready := rfl
@[simp] theorem lineConfigure_busy (p : Params) (id : LineId) (s : State) : ((lineConfigure p id s).2).busy = s.busy := rfl
@[simp] theorem lineConfigure_err (p : Params) (id : LineId) (s : State) : ((lineConfigure p id s).2).err = s.err := rfl
@[simp] theorem lineConfigure_cfgerr (p : Params) (id : LineId) (s : State) : ((lineConfigure p id s).2).cfgerr = s.cfgerr := rfl
@[simp] theorem lineConfigure_result (p : Params) (id : LineId) (s : State) : ((lineConfigure p id s).2).result = s.result := rfl
@[simp] theorem lineConfigure_op (p : Params) (id : LineId) (s : State) : ((lineConfigure p id s).2).op = s.op := rfl
@[simp] theorem lineConfigure_phase (p : Params) (id : LineId) (s : State) : ((lineConfigure p id s).2).phase = s.phase := rfl
@[simp] theorem lineConfigure_cnt (p : Params) (id : LineId) (s : State) : ((lineConfigure p id s).2).cnt = s.cnt := rfl
@[simp] theorem lineConfigure_bitidx (p : Params) (id : LineId) (s : State) : ((lineConfigure p id s).2).bitidx = s.bitidx := rfl
@[simp] theorem lineConfigure_sh (p : Params) (id : LineId) (s : State) : ((lineConfigure p id s).2).sh = s.sh := rfl
@[simp] theorem lineConfigure_samp (p : Params) (id : LineId) (s : State) : ((lineConfigure p id s).2).samp = s.samp := rfl
@[simp] theorem lineConfigure_pads (p : Params) (id : LineId) (s : State) : ((lineConfigure p id s).2).pads = Memory.write s.pads id (match p.platform id with | .ok => Pad.configured (p.freeLatch s.trace.length) | .err _ => p.freePad s.trace.length) := rfl
@[simp] theorem lineConfigure_trace (p : Params) (id : LineId) (s : State) : ((lineConfigure p id s).2).trace = s.trace ++ [⟨s.now, .configure id (p.platform id)⟩] := rfl
@[simp] theorem lineConfigure_now (p : Params) (id : LineId) (s : State) : ((lineConfigure p id s).2).now = s.now := rfl
@[simp] theorem lineConfigure_host (p : Params) (id : LineId) (s : State) : ((lineConfigure p id s).2).host = s.host := rfl

@[simp] theorem lineConfigure_answer (p : Params) (id : LineId) (s : State) :
    (lineConfigure p id s).1 = p.platform id := rfl

theorem pad_lineConfigure_other {id j : LineId} (h : j ≠ id) (p : Params) (s : State) :
    (lineConfigure p id s).2.pad j = s.pad j := by simp [State.pad, Memory.read_write_other h]

theorem pad_lineConfigure_same (p : Params) (id : LineId) (s : State) :
    (lineConfigure p id s).2.pad id = match p.platform id with
      | .ok => Pad.configured (p.freeLatch s.trace.length)
      | .err _ => p.freePad s.trace.length := by simp [State.pad]

/-! ### What a micro-operation, a phase entry, and the acceptance of a command leave alone -/

/-- The fields that no micro-operation and no phase entry writes. -/
structure SameControl (s t : State) : Prop where
  lineId : t.lineId = s.lineId
  ready  : t.ready = s.ready
  busy   : t.busy = s.busy
  err    : t.err = s.err
  cfgerr : t.cfgerr = s.cfgerr
  result : t.result = s.result
  op     : t.op = s.op
  phase  : t.phase = s.phase
  bitidx : t.bitidx = s.bitidx
  now    : t.now = s.now
  host   : t.host = s.host
  pads   : ∀ id, id ≠ s.lineId → t.pad id = s.pad id

theorem SameControl.trans {s t u : State} (h : SameControl s t) (g : SameControl t u) : SameControl s u where
  lineId := g.lineId.trans h.lineId
  ready  := g.ready.trans h.ready
  busy   := g.busy.trans h.busy
  err    := g.err.trans h.err
  cfgerr := g.cfgerr.trans h.cfgerr
  result := g.result.trans h.result
  op     := g.op.trans h.op
  phase  := g.phase.trans h.phase
  bitidx := g.bitidx.trans h.bitidx
  now    := g.now.trans h.now
  host   := g.host.trans h.host
  pads   := fun id hid => (g.pads id (h.lineId ▸ hid)).trans (h.pads id hid)

/-- What a micro-operation can do. -/
theorem perform_sameControl (p : Params) (a : Action) (s : State) : SameControl s (perform p a s) := by
  cases a <;> constructor <;> first
    | rfl
    | exact fun id h => pad_lineDir_other h _ _
    | exact fun id h => pad_lineLevel_other h _ _
    | exact fun id _ => rfl

theorem performAll_sameControl (p : Params) (as : List Action) (s : State) : SameControl s (performAll p as s) := by
  induction as generalizing s with
  | nil => constructor <;> first | rfl | exact fun _ _ => rfl
  | cons a as ih => exact (perform_sameControl p a s).trans (ih (perform p a s))

/-- What a phase entry can do. -/
theorem enter_sameControl (p : Params) (k : SlotKind) (s : State) : SameControl s (enter p k s) := by
  refine (performAll_sameControl p (phaseTable k s.phase (lowBit s.sh)).actions s).trans ?_
  constructor <;> first | rfl | exact fun _ _ => rfl

/-- What the edge at the end of a wait can do. -/
theorem endOfWait_cases (p : Params) (k : SlotKind) (s : State) :
    (s.phase < lastPhase k ∧ endOfWait p k s = enter p k { s with phase := s.phase + 1 }) ∨
    (¬ s.phase < lastPhase k ∧ isByteOp s.op = true ∧ s.bitidx < 7#3 ∧ endOfWait p k s = nextSlot p k s) ∨
    (¬ s.phase < lastPhase k ∧ ¬ (isByteOp s.op = true ∧ s.bitidx < 7#3) ∧ endOfWait p k s = complete s) := by
  unfold endOfWait
  by_cases h1 : s.phase < lastPhase k
  · exact .inl ⟨h1, by simp [h1]⟩
  · by_cases h2 : isByteOp s.op = true ∧ s.bitidx < 7#3
    · exact .inr (.inl ⟨h1, h2.1, h2.2, by simp [h1, h2]⟩)
    · exact .inr (.inr ⟨h1, h2, by rw [if_neg h1, if_neg h2]⟩)

/-- What an edge with `BUSY = 1` can do. -/
theorem sequencerEdge_cases (p : Params) (s : State) :
    (1 < s.cnt ∧ sequencerEdge p s = .next { s with cnt := s.cnt - 1 }) ∨
    (s.cnt ≤ 1 ∧ ∃ k, kindOf s.op = some k ∧ sequencerEdge p s = .next (endOfWait p k s)) ∨
    (s.cnt ≤ 1 ∧ kindOf s.op = none ∧ sequencerEdge p s = .fault .noSlotKind) := by
  unfold sequencerEdge
  by_cases h : 1 < s.cnt
  · exact .inl ⟨h, by simp [h]⟩
  · have h' : s.cnt ≤ 1 := by omega
    cases hk : kindOf s.op with
    | some k => exact .inr (.inl ⟨h', k, rfl, by simp [h]⟩)
    | none => exact .inr (.inr ⟨h', rfl, by simp [h]⟩)

/-- What an edge can do, the pins given: reset, a move of the sequencer, an illegal word, a command, or nothing. -/
theorem tickEdge_cases (p : Params) (x : Pins) (s : State) :
    (x.hreset = true ∧ s.busy = true ∧ tickEdge p x s = .refused .hresetWhileBusy) ∨
    (x.hreset = true ∧ s.busy = false ∧ tickEdge p x s = .next (hardReset p s).tick) ∨
    (x.hreset = false ∧ s.busy = true ∧ tickEdge p x s = onNext State.tick (sequencerEdge p s)) ∨
    (x.hreset = false ∧ s.busy = false ∧ x.cmdValid = true ∧ (∃ why, decode x.cmd = .illegal why) ∧
      tickEdge p x s = .next (raise .illegalCmd s).tick) ∨
    (x.hreset = false ∧ s.busy = false ∧ x.cmdValid = true ∧
      ∃ i, decode x.cmd = .command i ∧ tickEdge p x s = .next (accept p i s).tick) ∨
    (x.hreset = false ∧ s.busy = false ∧ x.cmdValid = false ∧ tickEdge p x s = .next s.tick) := by
  unfold tickEdge edge edgeCore acceptWord
  cases x.hreset <;> cases s.busy <;> cases x.cmdValid <;> cases decode x.cmd <;> simp [onNext]

/-- `exec` is the acceptance at the machine's own parameters. -/
theorem exec_eq_accept (i : Instr) (s : State) : exec i s = .next (accept Config.params i s) := by
  cases i <;> rfl

/-- The machine's step is the edge for its own parameters. -/
theorem step_eq_stepWith (s : State) : step s = tickEdge Config.params (pinsNow s) s.hostMoved := by
  have h : exec = fun i t => .next (accept Config.params i t) := by
    funext i t; exact exec_eq_accept i t
  simp only [step, tickEdge, h]

end Sys2Proof.Machine
end

