-- ==== Sys2Proof/Laws/Sequencer.lean ====
section
/-! SUPPORT. What entering each phase does, as an equation per phase; and how a wait is counted over several edges. -/

namespace Sys2Proof.Machine

/-- The low time of phase 0 (40_execution_model.md R109). -/
def lowUs (k : SlotKind) (b : Bool) : Nat :=
  match k with
  | .writeSlot => if b then Config.tW1Low else Config.tW0Low
  | .readSlot  => Config.tRdLow
  | .resetSeq  => Config.tRstLow

/-- The settle time of phase 1 of a slot that samples. -/
def settleUs : SlotKind → Nat
  | .resetSeq => Config.tRstWait
  | .readSlot | .writeSlot => Config.tRdSettle

/-- The recovery time of phase 2 of a slot that samples. -/
def recoveryUs : SlotKind → Nat
  | .resetSeq => Config.tRstRec
  | .readSlot | .writeSlot => Config.tRdRec

/-- Phase 0 of every kind: Output, Low, and the low time. -/
theorem enter_phase0 (p : Params) (k : SlotKind) (s : State) (h : s.phase = 0) :
    enter p k s = beginWait p (lowUs k (lowBit s.sh)) (lineLevel s.lineId .low (lineDir s.lineId .output s)) := by
  cases k <;> simp [enter, phaseTable, h, performAll, perform, lowUs]

/-- Phase 1 of a write slot: High, the direction kept. -/
theorem enter_write_phase1 (p : Params) (s : State) (h : s.phase = 1) :
    enter p .writeSlot s =
      beginWait p (if lowBit s.sh then Config.tW1High else Config.tW0High) (lineLevel s.lineId .high s) := by
  simp [enter, phaseTable, h, performAll, perform]

/-- Phase 1 of a slot that samples: High, then Input. -/
theorem enter_sense_phase1 (p : Params) (k : SlotKind) (hk : k ≠ .writeSlot) (s : State) (h : s.phase = 1) :
    enter p k s = beginWait p (settleUs k) (lineDir s.lineId .input (lineLevel s.lineId .high s)) := by
  cases k <;> first | exact absurd rfl hk | simp [enter, phaseTable, h, performAll, perform, settleUs]

/-- Phase 2 of a slot that samples: the sample, then the recovery. -/
theorem enter_sense_phase2 (p : Params) (k : SlotKind) (hk : k ≠ .writeSlot) (s : State) (h : s.phase = 2) :
    enter p k s = beginWait p (recoveryUs k)
      (storeSample (lineSample p s.lineId s).1 (lineSample p s.lineId s).2) := by
  cases k <;> first | exact absurd rfl hk | simp [enter, phaseTable, h, performAll, perform, recoveryUs]

/-- An edge with `BUSY = 1` and `hreset = 0` is the sequencer's. -/
theorem tickEdge_busy (p : Params) {x : Pins} {s : State} (hx : x.hreset = false) (hb : s.busy = true) :
    tickEdge p x s = onNext State.tick (sequencerEdge p s) := by
  simp [tickEdge, edge, edgeCore, hx, hb]

/-- One edge of a wait that goes on. -/
theorem tickEdge_counts (p : Params) {x : Pins} {s : State} (hx : x.hreset = false) (hb : s.busy = true)
    (hc : 1 < s.cnt) : tickEdge p x s = .next { s with cnt := s.cnt - 1, now := s.now + 1 } := by
  rw [tickEdge_busy p hx hb]; simp [sequencerEdge, hc, State.tick]

/-- The edge at which a wait ends. -/
theorem tickEdge_endOfWait (p : Params) {x : Pins} {s : State} {k : SlotKind} (hx : x.hreset = false)
    (hb : s.busy = true) (hc : s.cnt ≤ 1) (hk : kindOf s.op = some k) :
    tickEdge p x s = .next (endOfWait p k s).tick := by
  rw [tickEdge_busy p hx hb]; simp [sequencerEdge, hk, show ¬ 1 < s.cnt by omega]

/-- Edges run one after another. -/
theorem runPins_append (p : Params) (xs ys : List Pins) (s : State) :
    runPins p (xs ++ ys) s = match runPins p xs s with
      | .next t => runPins p ys t
      | .fault r => .fault r
      | .refused r => .refused r := by
  induction xs generalizing s with
  | nil => rfl
  | cons x xs ih =>
    simp only [List.cons_append, runPins]
    cases tickEdge p x s <;> simp [ih]

theorem runPins_cons_next {p : Params} {x : Pins} {s t : State} (h : tickEdge p x s = .next t) (xs : List Pins) :
    runPins p (x :: xs) s = runPins p xs t := by simp [runPins, h]

end Sys2Proof.Machine
end

