-- ==== Sys2Proof/Laws/Entry.lean ====
section
/-! SUPPORT. What entering a phase does to `CNT`, to the pad of the bus line and to the trace. -/

namespace Sys2Proof.Machine

/-- The low time of a slot is between 1 and 480 microseconds, and so is every wait of the phase table. -/
theorem phaseTable_waitUs (k : SlotKind) (phase : BitVec 2) (b : Bool) :
    1 ≤ (phaseTable k phase b).waitUs ∧ (phaseTable k phase b).waitUs ≤ Config.tRstLow := by
  unfold phaseTable
  cases k <;> simp only <;> (repeat' split) <;> decide

/-- What the actions of a phase keep of the bus line's pad, and the canonical form. -/
structure KeepsAttributes (s t : State) : Prop where
  wf       : Memory.wf s.pads = true → Memory.wf t.pads = true
  mode     : (t.pad s.lineId).mode = (s.pad s.lineId).mode
  pullUp   : (t.pad s.lineId).pullUp = (s.pad s.lineId).pullUp
  pullDown : (t.pad s.lineId).pullDown = (s.pad s.lineId).pullDown
  intEn    : (t.pad s.lineId).intEn = (s.pad s.lineId).intEn

theorem perform_keepsAttributes (p : Params) (a : Action) (s : State) : KeepsAttributes s (perform p a s) := by
  cases a <;> constructor <;> simp [perform] <;> intro h <;> exact Memory.wf_write h _ _

theorem performAll_keepsAttributes (p : Params) (as : List Action) (s : State) :
    KeepsAttributes s (performAll p as s) := by
  induction as generalizing s with
  | nil => exact ⟨id, rfl, rfl, rfl, rfl⟩
  | cons a as ih =>
    have h := perform_keepsAttributes p a s
    have g := ih (perform p a s)
    have e := (perform_sameControl p a s).lineId
    exact ⟨fun w => g.wf (h.wf w), (e ▸ g.mode).trans h.mode, (e ▸ g.pullUp).trans h.pullUp,
      (e ▸ g.pullDown).trans h.pullDown, (e ▸ g.intEn).trans h.intEn⟩

/-- Entering a phase keeps the configured attributes and the canonical form. -/
theorem enter_keepsAttributes (p : Params) (k : SlotKind) (s : State) : KeepsAttributes s (enter p k s) := by
  have h := performAll_keepsAttributes p (phaseTable k s.phase (lowBit s.sh)).actions s
  exact ⟨h.wf, h.mode, h.pullUp, h.pullDown, h.intEn⟩

/-- The bounds of `CNT` after a phase entry (10_state.md R33). -/
theorem enter_cnt (p : Params) (k : SlotKind) (s : State) :
    1 ≤ (enter p k s).cnt ∧ (p.delay = .exact → (enter p k s).cnt ≤ Config.tRstLow * p.ticksPerUs) := by
  obtain ⟨h1, h2⟩ := phaseTable_waitUs k s.phase (lowBit s.sh)
  constructor
  · exact Nat.le_trans (Nat.mul_le_mul h1 p.ticksPos) (le_waitTicks p _ _)
  · intro e
    show waitTicks p _ _ ≤ _
    rw [waitTicks_exact e]
    exact Nat.mul_le_mul_right _ h2

/-- The direction and level of the bus line's pad after a phase entry, from what it held in the phase before. -/
theorem enter_pad (p : Params) (k : SlotKind) (s : State) (hph : s.phase ≤ lastPhase k)
    (hpre : s.phase ≠ 0 → ((s.pad s.lineId).dir, (s.pad s.lineId).out) = padInPhase k (s.phase - 1)) :
    (((enter p k s).pad s.lineId).dir, ((enter p k s).pad s.lineId).out) = padInPhase k s.phase := by
  have h3 : s.phase = 0 ∨ s.phase = 1 ∨ (s.phase = 2 ∧ k ≠ .writeSlot) := by
    revert hph; generalize s.phase = q; cases k <;> revert q <;> decide
  rcases h3 with h | h | ⟨h, hk⟩
  · rw [enter_phase0 _ _ _ h]; simp [padInPhase, h]
  · have hpre' := hpre (by rw [h]; decide)
    rw [h] at hpre'
    simp [padInPhase] at hpre'
    cases k with
    | writeSlot => rw [enter_write_phase1 _ _ h]; simp [padInPhase, h, hpre'.1]
    | readSlot => rw [enter_sense_phase1 _ _ (by decide) _ h]; simp [padInPhase, h]
    | resetSeq => rw [enter_sense_phase1 _ _ (by decide) _ h]; simp [padInPhase, h]
  · have hpre' := hpre (by rw [h]; decide)
    rw [h] at hpre'
    rw [enter_sense_phase2 _ _ hk _ h]
    cases k with
    | writeSlot => exact absurd rfl hk
    | readSlot => simpa [padInPhase, h] using hpre'
    | resetSeq => simpa [padInPhase, h] using hpre'

/-- A phase entry only appends to the trace, at the time of the edge. -/
theorem enter_trace (p : Params) (k : SlotKind) (s : State) :
    ∃ new, (enter p k s).trace = s.trace ++ new ∧ ∀ e ∈ new, e.time = s.now := by
  have grow : ∀ (as : List Action) (m : State), m.now = s.now →
      ∃ new, (performAll p as m).trace = m.trace ++ new ∧ ∀ e ∈ new, e.time = s.now := by
    intro as
    induction as with
    | nil => exact fun m _ => ⟨[], by simp [performAll], by simp⟩
    | cons a as ih =>
      intro m hm
      obtain ⟨n2, h2, t2⟩ := ih (perform p a m) ((perform_sameControl p a m).now.trans hm)
      obtain ⟨e, h1, t1⟩ : ∃ e : Stamped, (perform p a m).trace = m.trace ++ [e] ∧ e.time = s.now := by
        cases a <;> exact ⟨_, rfl, hm⟩
      refine ⟨e :: n2, ?_, by simpa [t1] using t2⟩
      rw [show performAll p (a :: as) m = performAll p as (perform p a m) from rfl, h2, h1]; simp
  obtain ⟨new, h, t⟩ := grow (phaseTable k s.phase (lowBit s.sh)).actions s rfl
  refine ⟨new ++ [⟨(performAll p (phaseTable k s.phase (lowBit s.sh)).actions s).now,
    .wait (phaseTable k s.phase (lowBit s.sh)).waitUs⟩], ?_, ?_⟩
  · simp [enter, h]
  · intro e he
    rcases List.mem_append.1 he with h' | h'
    · exact t _ h'
    · simp only [List.mem_singleton] at h'
      subst h'
      exact (performAll_sameControl p _ s).now

end Sys2Proof.Machine
end

