-- ==== Sys2Proof/Laws/Operation.lean ====
section
/-! SUPPORT. What each part of the operation level does: the events it appends, the time it takes, the pad it leaves,
and what it keeps. -/

namespace Sys2Proof.Machine

/-- The fields that no slot of the operation level writes. -/
structure Kept (s u : State) : Prop where
  lineId : u.lineId = s.lineId
  ready  : u.ready = s.ready
  busy   : u.busy = s.busy
  err    : u.err = s.err
  cfgerr : u.cfgerr = s.cfgerr
  result : u.result = s.result
  host   : u.host = s.host
  pads   : ∀ a, a ≠ s.lineId → u.pad a = s.pad a

theorem Kept.refl (s : State) : Kept s s := ⟨rfl, rfl, rfl, rfl, rfl, rfl, rfl, fun _ _ => rfl⟩

theorem Kept.trans {s t u : State} (h : Kept s t) (g : Kept t u) : Kept s u where
  lineId := g.lineId.trans h.lineId
  ready  := g.ready.trans h.ready
  busy   := g.busy.trans h.busy
  err    := g.err.trans h.err
  cfgerr := g.cfgerr.trans h.cfgerr
  result := g.result.trans h.result
  host   := g.host.trans h.host
  pads   := fun a ha => (g.pads a (h.lineId ▸ ha)).trans (h.pads a ha)

theorem State.events_def (s : State) : s.events = s.trace.map Stamped.event := rfl

theorem sampleCount_append (a b : List Stamped) : sampleCount (a ++ b) = sampleCount a + sampleCount b := by
  induction a with
  | nil => simp [sampleCount]
  | cons e r ih =>
    obtain ⟨t, e⟩ := e
    cases e <;> simp only [List.cons_append, sampleCount, ih]
    omega

theorem answers_append (p : Params) (old a b : List Stamped) :
    answers p old (a ++ b) ↔ answers p old a ∧ answers p (old ++ a) b := by
  induction a generalizing old with
  | nil => simp [answers]
  | cons e r ih => simp [answers, ih, and_assoc]

/-- Between `s` and `u` the trace grew, and every sample recorded meanwhile is the oracle's answer. -/
def GrowsAnswered (p : Params) (s u : State) : Prop := ∃ new, u.trace = s.trace ++ new ∧ answers p s.trace new

theorem GrowsAnswered.refl (p : Params) (s : State) : GrowsAnswered p s s := ⟨[], by simp, trivial⟩

theorem GrowsAnswered.trans {p : Params} {s t u : State} (h : GrowsAnswered p s t) (g : GrowsAnswered p t u) :
    GrowsAnswered p s u := by
  obtain ⟨a, ha, qa⟩ := h
  obtain ⟨b, hb, qb⟩ := g
  exact ⟨a ++ b, by rw [hb, ha, List.append_assoc], (answers_append ..).2 ⟨qa, ha ▸ qb⟩⟩

/-- Writing `RESULT` records nothing. -/
theorem GrowsAnswered.result {p : Params} {s u : State} (h : GrowsAnswered p s u) (r : Byte) :
    GrowsAnswered p s { u with result := r } := h

theorem lineDir_answered (p : Params) (id : LineId) (d : Direction) (s : State) :
    GrowsAnswered p s (lineDir id d s) := ⟨[⟨s.now, .dir id d⟩], rfl, by simp [answers]⟩

theorem lineLevel_answered (p : Params) (id : LineId) (l : Level) (s : State) :
    GrowsAnswered p s (lineLevel id l s) := ⟨[⟨s.now, .level id l⟩], rfl, by simp [answers]⟩

theorem delay_answered (p : Params) (n : Nat) (s : State) : GrowsAnswered p s (delay p n s) :=
  ⟨[⟨s.now, .wait n⟩], rfl, by simp [answers]⟩

theorem lineSample_answered (p : Params) (id : LineId) (s : State) : GrowsAnswered p s (lineSample p id s).2 :=
  ⟨[⟨s.now, .sample id (p.oracle (s.query id))⟩], rfl, by simp [answers, State.query]⟩

theorem opWriteSlot_answered (p : Params) (b : Bool) (s : State) : GrowsAnswered p s (opWriteSlot p b s) :=
  (lineDir_answered ..).trans <| (lineLevel_answered ..).trans <| (delay_answered ..).trans <|
    (lineLevel_answered ..).trans (delay_answered ..)

theorem opSenseSlot_answered (p : Params) (a b c : Nat) (s : State) : GrowsAnswered p s (opSenseSlot p a b c s).2 :=
  (lineDir_answered ..).trans <| (lineLevel_answered ..).trans <| (delay_answered ..).trans <|
    (lineLevel_answered ..).trans <| (lineDir_answered ..).trans <| (delay_answered ..).trans <|
      (lineSample_answered ..).trans (delay_answered ..)

theorem opReadSlot_answered (p : Params) (s : State) : GrowsAnswered p s (opReadSlot p s).2 :=
  opSenseSlot_answered p _ _ _ s

theorem opResetSeq_answered (p : Params) (s : State) : GrowsAnswered p s (opResetSeq p s).2 :=
  opSenseSlot_answered p _ _ _ s

theorem opWriteLoop_answered (p : Params) (n : Nat) (v : Byte) (s : State) :
    GrowsAnswered p s (opWriteLoop p n v s) := by
  induction n generalizing v s with
  | zero => exact GrowsAnswered.refl p s
  | succ n ih =>
    rw [opWriteLoop]
    exact (opWriteSlot_answered p (lowBit v) s).trans (ih _ _)

theorem opReadLoop_answered (p : Params) (n : Nat) (r : Byte) (s : State) :
    GrowsAnswered p s (opReadLoop p n r s).2 := by
  induction n generalizing r s with
  | zero => exact GrowsAnswered.refl p s
  | succ n ih =>
    rw [opReadLoop]
    exact (opReadSlot_answered p s).trans (ih _ _)

/-- Every sample of the operation level is the oracle's answer. -/
theorem operateBody_answered (p : Params) (i : Instr) (s : State) : GrowsAnswered p s (operateBody p i s) := by
  cases i <;> simp only [operateBody]
  case writeBit b => exact opWriteSlot_answered p b s
  case readBit => exact (opReadSlot_answered p s).result _
  case writeByte v => exact opWriteLoop_answered p _ v s
  case readByte => exact (opReadLoop_answered p _ _ s).result _
  case owReset => exact (opResetSeq_answered p s).result _
  all_goals exact GrowsAnswered.refl p s

/-- What the presence sample returns. -/
theorem opResetSeq_answer (p : Params) (s : State) : (opResetSeq p s).1 = p.oracle (presenceQuery p s) := by
  simp [opResetSeq, opSenseSlot, lineSample, State.query, presenceQuery, sampleCount_append, sampleCount, Nat.add_assoc]

/-- Everything a write slot does. -/
theorem opWriteSlot_spec (p : Params) (b : Bool) (s : State) :
    Kept s (opWriteSlot p b s) ∧ (opWriteSlot p b s).events = s.events ++ slotW s.lineId b ∧
    (p.delay = .exact → (opWriteSlot p b s).now = s.now + 70 * p.ticksPerUs) ∧
    (opWriteSlot p b s).pad s.lineId = { s.pad s.lineId with dir := .output, out := .high } := by
  refine ⟨?_, ?_, fun h => ?_, ?_⟩
  · constructor <;> try (simp only [opWriteSlot, lineDir_lineId, lineDir_ready, lineDir_busy, lineDir_err,
      lineDir_cfgerr, lineDir_result, lineDir_host, lineLevel_lineId, lineLevel_ready, lineLevel_busy, lineLevel_err,
      lineLevel_cfgerr, lineLevel_result, lineLevel_host, delay_lineId, delay_ready, delay_busy, delay_err,
      delay_cfgerr, delay_result, delay_host]; done)
    intro a ha
    simp only [opWriteSlot, pad_delay, pad_lineLevel_other ha, pad_lineDir_other ha]
  · simp [opWriteSlot, State.events_def, slotW, Config.tW0Low, Config.tW1Low, Config.tW1High, Config.tW0High]
  · simp only [opWriteSlot, delay_now, lineLevel_now, lineDir_now, waitTicks_exact h, Config.tW0Low, Config.tW1Low,
      Config.tW1High, Config.tW0High]
    cases b <;> simp <;> omega
  · simp [opWriteSlot]

/-- Everything a slot that samples does. -/
theorem opSenseSlot_spec (p : Params) (a b c : Nat) (s : State) :
    Kept s (opSenseSlot p a b c s).2 ∧
    (opSenseSlot p a b c s).2.events = s.events ++
      [.dir s.lineId .output, .level s.lineId .low, .wait a, .level s.lineId .high, .dir s.lineId .input, .wait b,
        .sample s.lineId (opSenseSlot p a b c s).1, .wait c] ∧
    (p.delay = .exact → (opSenseSlot p a b c s).2.now = s.now + (a + b + c) * p.ticksPerUs) ∧
    (opSenseSlot p a b c s).2.pad s.lineId = { s.pad s.lineId with dir := .input, out := .high } := by
  refine ⟨?_, ?_, fun h => ?_, ?_⟩
  · constructor <;> try (simp only [opSenseSlot, lineDir_lineId, lineDir_ready, lineDir_busy, lineDir_err,
      lineDir_cfgerr, lineDir_result, lineDir_host, lineLevel_lineId, lineLevel_ready, lineLevel_busy, lineLevel_err,
      lineLevel_cfgerr, lineLevel_result, lineLevel_host, delay_lineId, delay_ready, delay_busy, delay_err,
      delay_cfgerr, delay_result, delay_host, lineSample_lineId, lineSample_ready, lineSample_busy, lineSample_err,
      lineSample_cfgerr, lineSample_result, lineSample_host]; done)
    intro a ha
    simp only [opSenseSlot, pad_delay, pad_lineLevel_other ha, pad_lineDir_other ha, pad_lineSample]
  · simp [opSenseSlot, State.events_def]
  · simp only [opSenseSlot, delay_now, lineLevel_now, lineDir_now, lineSample_now, waitTicks_exact h]
    ring
  · simp [opSenseSlot]

/-- Everything a read slot does. -/
theorem opReadSlot_spec (p : Params) (s : State) :
    Kept s (opReadSlot p s).2 ∧ (opReadSlot p s).2.events = s.events ++ slotR s.lineId (opReadSlot p s).1 ∧
    (p.delay = .exact → (opReadSlot p s).2.now = s.now + 70 * p.ticksPerUs) ∧
    (opReadSlot p s).2.pad s.lineId = { s.pad s.lineId with dir := .input, out := .high } :=
  opSenseSlot_spec p 6 9 55 s

/-- Everything a reset sequence does. -/
theorem opResetSeq_spec (p : Params) (s : State) :
    Kept s (opResetSeq p s).2 ∧ (opResetSeq p s).2.events = s.events ++ rstSeq s.lineId (opResetSeq p s).1 ∧
    (p.delay = .exact → (opResetSeq p s).2.now = s.now + 960 * p.ticksPerUs) ∧
    (opResetSeq p s).2.pad s.lineId = { s.pad s.lineId with dir := .input, out := .high } :=
  opSenseSlot_spec p 480 70 410 s

theorem getLsbD_shiftOut (v : Byte) : (shiftOut v).getLsbD = fun k => v.getLsbD (k + 1) := by
  funext k; simp [shiftOut, Nat.add_comm]

/-- Everything `n` turns of the loop of `WRITE_BYTE` do. -/
theorem opWriteLoop_spec (p : Params) (n : Nat) (v : Byte) (s : State) :
    Kept s (opWriteLoop p n v s) ∧
    (opWriteLoop p n v s).events = s.events ++ ((List.range n).map v.getLsbD).flatMap (slotW s.lineId) ∧
    (p.delay = .exact → (opWriteLoop p n v s).now = s.now + n * 70 * p.ticksPerUs) ∧
    (0 < n → (opWriteLoop p n v s).pad s.lineId = { s.pad s.lineId with dir := .output, out := .high }) := by
  induction n generalizing v s with
  | zero => exact ⟨Kept.refl s, by simp [opWriteLoop], by simp [opWriteLoop], by simp⟩
  | succ n ih =>
    obtain ⟨k1, e1, n1, p1⟩ := opWriteSlot_spec p (lowBit v) s
    obtain ⟨k2, e2, n2, p2⟩ := ih (shiftOut v) (opWriteSlot p (lowBit v) s)
    refine ⟨k1.trans k2, ?_, fun h => ?_, fun _ => ?_⟩
    · show (opWriteLoop p n (shiftOut v) (opWriteSlot p (lowBit v) s)).events = _
      rw [e2, e1, k1.lineId, getLsbD_shiftOut, List.range_succ_eq_map]
      simp only [lowBit, List.map_cons, List.map_map, List.flatMap_cons, List.append_assoc]
      rfl
    · simp only [opWriteLoop, n2 h, n1 h]; ring
    · cases n with
      | zero => exact p1
      | succ n =>
        have q := p2 (by omega)
        rw [k1.lineId] at q
        simp only [opWriteLoop] at q ⊢
        rw [q, p1]

/-- The levels that `n` turns of the loop of `READ_BYTE` sample. -/
def readLevels (p : Params) : Nat → State → List Level
  | 0, _ => []
  | n + 1, s => (opReadSlot p s).1 :: readLevels p n (opReadSlot p s).2

@[simp] theorem readLevels_length (p : Params) (n : Nat) (s : State) : (readLevels p n s).length = n := by
  induction n generalizing s <;> simp [readLevels, *]

/-- Everything `n` turns of the loop of `READ_BYTE` do. -/
theorem opReadLoop_spec (p : Params) (n : Nat) (r : Byte) (s : State) :
    Kept s (opReadLoop p n r s).2 ∧
    (opReadLoop p n r s).2.events = s.events ++ (readLevels p n s).flatMap (slotR s.lineId) ∧
    (p.delay = .exact → (opReadLoop p n r s).2.now = s.now + n * 70 * p.ticksPerUs) ∧
    (0 < n → (opReadLoop p n r s).2.pad s.lineId = { s.pad s.lineId with dir := .input, out := .high }) ∧
    (opReadLoop p n r s).1 = (readLevels p n s).foldl (fun a l => shiftIn l.bit a) r := by
  induction n generalizing r s with
  | zero => exact ⟨Kept.refl s, by simp [opReadLoop, readLevels], by simp [opReadLoop], by simp, rfl⟩
  | succ n ih =>
    obtain ⟨k1, e1, n1, p1⟩ := opReadSlot_spec p s
    obtain ⟨k2, e2, n2, p2, r2⟩ := ih (shiftIn (opReadSlot p s).1.bit r) (opReadSlot p s).2
    refine ⟨k1.trans k2, ?_, fun h => ?_, fun _ => ?_, r2⟩
    · simp only [opReadLoop, e2, k1.lineId, e1, readLevels, List.flatMap_cons, List.append_assoc]
    · simp only [opReadLoop, n2 h, n1 h]; ring
    · cases n with
      | zero => exact p1
      | succ n =>
        have q := p2 (by omega)
        rw [k1.lineId] at q
        simp only [opReadLoop] at q ⊢
        rw [q, p1]

/-- Eight levels shifted in, the first ends at bit 0. -/
theorem shiftIn_eight (ls : List Level) (h : ls.length = 8) :
    ls.foldl (fun a l => shiftIn l.bit a) 0x00 = byteOfLevels ls := by
  match ls, h with
  | [a, b, c, d, e, f, g, i], _ =>
    cases a <;> cases b <;> cases c <;> cases d <;> cases e <;> cases f <;> cases g <;> cases i <;> decide

/-- A timed command of a ready block is its body, with `ERR` cleared first. -/
theorem operate_ready (p : Params) (i : Instr) (s : State) (hi : i.timed = true) (hr : s.ready = true) :
    operate p i s = operateBody p i { s with err := ErrCode.ok.bits } := by
  cases i <;> simp [Instr.timed] at hi <;> simp [operate, hr]

end Sys2Proof.Machine
end

