-- ==== Sys2Proof/Laws/PerInstr.lean ====
section
/-! SUPPORT. Statements made per instruction. `Encodes`: the fields of a command's word are its operation code and its
operand, and they pass the checks of 30_encoding.md R85. -/

namespace Sys2Proof.Laws.Encodes

/-- The word of `i` holds `i`'s two fields, and the fields are well formed. -/
def Statement (i : Instr) : Prop := rawOf (encode i) = i.raw ∧ i.wellFormed = true

/-- The fields of a word put together are read back. -/
theorem rawOf_append (o : BitVec 4) (a : Byte) : rawOf (o ++ a) = ⟨o, a⟩ := by
  have h1 : opField (o ++ a) = o := by
    apply BitVec.eq_of_getLsbD_eq
    intro i hi
    refine (BitVec.getLsbD_extractLsb' ..).trans ?_
    rw [show (o ++ a : Word).getLsbD (8 + i) = _ from BitVec.getLsbD_append]
    simp [hi]
  have h2 : argField (o ++ a) = a := by
    apply BitVec.eq_of_getLsbD_eq
    intro i hi
    refine (BitVec.getLsbD_extractLsb' ..).trans ?_
    rw [show (o ++ a : Word).getLsbD (0 + i) = _ from BitVec.getLsbD_append]
    simp [hi]
  exact congrArg₂ RawCmd.mk h1 h2

theorem init (id : LineId) : Statement (.init id) := ⟨rawOf_append _ _, rfl⟩
theorem writeBit (b : Bool) : Statement (.writeBit b) := ⟨rawOf_append _ _, by cases b <;> decide⟩
theorem readBit : Statement .readBit := ⟨rawOf_append _ _, by decide⟩
theorem writeByte (v : Byte) : Statement (.writeByte v) := ⟨rawOf_append _ _, rfl⟩
theorem readByte : Statement .readByte := ⟨rawOf_append _ _, by decide⟩
theorem owReset : Statement .owReset := ⟨rawOf_append _ _, by decide⟩
theorem ppEnable : Statement .ppEnable := ⟨rawOf_append _ _, by decide⟩
theorem ppDisable : Statement .ppDisable := ⟨rawOf_append _ _, by decide⟩

end Sys2Proof.Laws.Encodes
end

