-- ==== Sys2Proof/Laws/Slots.lean ====
section
/-! SUPPORT. How the clock edges of one slot follow the operation level: `Follows` relates a state of the edges to one
of the operation level, `Reaches` says which state a number of edges leads to whatever the host presents, and each
slot and each byte loop gets one lemma. -/

namespace Sys2Proof.Machine

theorem noReset_cons {x : Pins} {xs : List Pins} :
    noReset (x :: xs) = true ↔ x.hreset = false ∧ noReset xs = true := by simp [noReset]

theorem noReset_append {xs ys : List Pins} :
    noReset (xs ++ ys) = true ↔ noReset xs = true ∧ noReset ys = true := by
  simp only [noReset, List.all_append, Bool.and_eq_true]

/-- Counting down to a count that is still positive. -/
theorem runPins_countdown (p : Params) (xs : List Pins) (s : State) (c : Nat) (hx : noReset xs = true)
    (hb : s.busy = true) (hs : s.cnt = c + 1 + xs.length) :
    runPins p xs s = .next { s with cnt := c + 1, now := s.now + xs.length } := by
  induction xs generalizing s with
  | nil =>
    have e : c + 1 = s.cnt := by simpa using hs.symm
    rw [e]; rfl
  | cons x xs ih =>
    rw [noReset_cons] at hx
    simp only [List.length_cons] at hs ⊢
    rw [runPins_cons_next (tickEdge_counts p hx.1 hb (by omega))]
    refine (ih { s with cnt := s.cnt - 1, now := s.now + 1 } hx.2 hb (by show s.cnt - 1 = _; omega)).trans ?_
    simp [Nat.add_comm, Nat.add_left_comm]

/-- From `s`, any `n` edges without `hreset` lead to `t`, and the block is busy after any fewer. -/
def Reaches (p : Params) (s : State) (n : Nat) (t : State) : Prop :=
  (∀ xs, noReset xs = true → xs.length = n → runPins p xs s = .next t) ∧
  (∀ xs, noReset xs = true → xs.length < n → ∃ u, runPins p xs s = .next u ∧ u.busy = true)

theorem Reaches.trans {p : Params} {s t u : State} {m n : Nat} (h : Reaches p s m t) (g : Reaches p t n u) :
    Reaches p s (m + n) u := by
  constructor
  · intro xs hx hl
    rw [← List.take_append_drop m xs] at hx ⊢
    rw [noReset_append] at hx
    rw [runPins_append, h.1 _ hx.1 (by simp; omega)]
    exact g.1 _ hx.2 (by simp; omega)
  · intro xs hx hl
    by_cases hm : xs.length < m
    · exact h.2 xs hx hm
    rw [← List.take_append_drop m xs] at hx ⊢
    rw [noReset_append] at hx
    rw [runPins_append, h.1 _ hx.1 (by simp; omega)]
    exact g.2 _ hx.2 (by simp; omega)

/-- A wait of `s.cnt` edges ends, after exactly that many, at the edge that ends the phase. -/
theorem reaches_endOfWait (p : Params) (s : State) (k : SlotKind) (hb : s.busy = true) (hk : kindOf s.op = some k)
    (hc : 1 ≤ s.cnt) :
    Reaches p s.tick s.cnt (endOfWait p k { s with cnt := 1, now := s.now + s.cnt }).tick := by
  constructor
  · intro xs hx hl
    obtain ⟨ys, y, rfl⟩ : ∃ ys y, xs = ys ++ [y] := by
      rcases List.eq_nil_or_concat xs with rfl | ⟨ys, y, h⟩
      · simp at hl; omega
      · exact ⟨ys, y, by simpa using h⟩
    rw [noReset_append, noReset_cons] at hx
    simp only [List.length_append, List.length_cons, List.length_nil] at hl
    rw [runPins_append, runPins_countdown p ys s.tick 0 hx.1 hb (by show s.cnt = _; omega)]
    have e : s.now + 1 + ys.length = s.now + s.cnt := by omega
    simp only [runPins]
    rw [tickEdge_endOfWait p hx.2.1 (by exact hb) (by simp) (by exact hk)]
    simp [e]
  · intro xs hx hl
    exact ⟨_, runPins_countdown p xs s.tick (s.cnt - 1 - xs.length) hx hb (by show s.cnt = _; omega), hb⟩

/-- A wait of at least one microsecond lasts at least one edge. -/
theorem one_le_waitTicks (p : Params) (k n : Nat) (h : 1 ≤ n) : 1 ≤ waitTicks p k n :=
  Nat.le_trans (Nat.mul_le_mul h p.ticksPos) (le_waitTicks p k n)

/-- `s` and `u` agree on everything but `BUSY` and the sequencer registers. -/
structure Follows (s u : State) : Prop where
  pads   : s.pads = u.pads
  trace  : s.trace = u.trace
  now    : s.now = u.now
  lineId : s.lineId = u.lineId
  ready  : s.ready = u.ready
  err    : s.err = u.err
  cfgerr : s.cfgerr = u.cfgerr
  result : s.result = u.result
  host   : s.host = u.host

theorem Follows.dir {s u : State} (h : Follows s u) (id : LineId) (d : Direction) :
    Follows (lineDir id d s) (lineDir id d u) := by
  constructor <;> simp [h.pads, h.trace, h.now, h.lineId, h.ready, h.err, h.cfgerr, h.result, h.host, State.pad]

theorem Follows.level {s u : State} (h : Follows s u) (id : LineId) (l : Level) :
    Follows (lineLevel id l s) (lineLevel id l u) := by
  constructor <;> simp [h.pads, h.trace, h.now, h.lineId, h.ready, h.err, h.cfgerr, h.result, h.host, State.pad]

theorem Follows.answer {s u : State} (h : Follows s u) (p : Params) (id : LineId) :
    (lineSample p id s).1 = (lineSample p id u).1 := by
  simp [lineSample, State.query, h.trace, h.now]

theorem Follows.sample {s u : State} (h : Follows s u) (p : Params) (id : LineId) (l : Level) :
    Follows (storeSample l (lineSample p id s).2) (lineSample p id u).2 := by
  constructor <;>
    simp [h.pads, h.trace, h.now, h.lineId, h.ready, h.err, h.cfgerr, h.result, h.host, h.answer]

theorem Follows.setPhase {s u : State} (h : Follows s u) (ph : BitVec 2) : Follows { s with phase := ph } u :=
  ⟨h.1, h.2, h.3, h.4, h.5, h.6, h.7, h.8, h.9⟩

theorem Follows.wait {s u : State} (h : Follows s u) (p : Params) (n : Nat) :
    Follows { beginWait p n s with cnt := 1, now := (beginWait p n s).now + (beginWait p n s).cnt } (delay p n u) := by
  constructor <;> simp [h.pads, h.trace, h.now, h.lineId, h.ready, h.err, h.cfgerr, h.result, h.host]

/-- The edges of one phase's wait follow `Wait(n)` of the operation level. -/
theorem follow_wait (p : Params) (k : SlotKind) (n : Nat) (hn : 1 ≤ n) (m u : State) (hb : m.busy = true)
    (hk : kindOf m.op = some k) (h : Follows m u) :
    ∃ s', Reaches p (beginWait p n m).tick ((delay p n u).now - u.now) (endOfWait p k s').tick ∧
      Follows s' (delay p n u) ∧ s'.busy = true ∧ s'.op = m.op ∧ s'.phase = m.phase ∧ s'.bitidx = m.bitidx ∧
      s'.sh = m.sh ∧ s'.samp = m.samp := by
  refine ⟨_, ?_, h.wait p n, hb, rfl, rfl, rfl, rfl, rfl⟩
  have e : (delay p n u).now - u.now = (beginWait p n m).cnt := by simp [h.trace]
  rw [e]
  exact reaches_endOfWait p (beginWait p n m) k hb hk (one_le_waitTicks _ _ _ hn)

/-- The edges of a write slot follow the operation level's. -/
theorem follow_writeSlot (p : Params) (s u : State) (hb : s.busy = true) (hk : kindOf s.op = some .writeSlot)
    (hp : s.phase = 0) (h : Follows s u) :
    ∃ s', Reaches p (enter p .writeSlot s).tick ((opWriteSlot p (lowBit s.sh) u).now - u.now)
        (endOfWait p .writeSlot s').tick ∧
      Follows s' (opWriteSlot p (lowBit s.sh) u) ∧ s'.busy = true ∧ s'.op = s.op ∧ s'.phase = 1 ∧
      s'.bitidx = s.bitidx ∧ s'.sh = s.sh := by
  rw [enter_phase0 p _ s hp]
  obtain ⟨s1, r1, o1, b1, op1, ph1, bi1, sh1, _⟩ := follow_wait p .writeSlot (lowUs .writeSlot (lowBit s.sh))
    (by simp only [lowUs]; split <;> decide) (lineLevel s.lineId .low (lineDir s.lineId .output s))
    (lineLevel u.lineId .low (lineDir u.lineId .output u)) (by simpa using hb)
    (by rw [lineLevel_op, lineDir_op]; exact hk) (by rw [h.lineId]; exact (h.dir _ _).level _ _)
  simp only [lineLevel_phase, lineDir_phase, hp, lineLevel_op, lineDir_op, lineLevel_bitidx, lineDir_bitidx,
    lineLevel_sh, lineDir_sh] at ph1 op1 bi1 sh1
  have L1 : s1.lineId = u.lineId := by rw [o1.lineId]; simp
  have e1 : endOfWait p .writeSlot s1 = enter p .writeSlot { s1 with phase := 1 } := by
    simp [endOfWait, ph1, lastPhase]
  rw [e1, enter_write_phase1 _ _ rfl] at r1
  obtain ⟨s2, r2, o2, b2, op2, ph2, bi2, sh2, _⟩ := follow_wait p .writeSlot
    (if lowBit s1.sh then Config.tW1High else Config.tW0High) (by split <;> decide)
    (lineLevel s1.lineId .high { s1 with phase := 1 })
    (lineLevel s1.lineId .high (delay p (lowUs .writeSlot (lowBit s.sh))
      (lineLevel u.lineId .low (lineDir u.lineId .output u))))
    b1 (by simp [op1, hk]) ((o1.setPhase 1).level s1.lineId .high)
  rw [L1] at o2
  refine ⟨s2, ?_, ?_, b2, by simp [op2, op1], by simp [ph2], by simp [bi2, bi1], by simp [sh2, sh1]⟩
  · convert r1.trans r2 using 1
    simp [opWriteSlot, lowUs, sh1]; omega
  · rw [sh1] at o2; exact o2

/-- The actions of the slot of a kind that samples. -/
def senseSlot (p : Params) (k : SlotKind) (s : State) : Level × State :=
  opSenseSlot p (lowUs k false) (settleUs k) (recoveryUs k) s

/-- The edges of a slot that samples follow the operation level's. -/
theorem follow_senseSlot (p : Params) (k : SlotKind) (hkw : k ≠ .writeSlot) (s u : State) (hb : s.busy = true)
    (hk : kindOf s.op = some k) (hp : s.phase = 0) (h : Follows s u) :
    ∃ s', Reaches p (enter p k s).tick ((senseSlot p k u).2.now - u.now) (endOfWait p k s').tick ∧
      Follows s' (senseSlot p k u).2 ∧ s'.busy = true ∧ s'.op = s.op ∧ s'.phase = 2 ∧ s'.bitidx = s.bitidx ∧
      s'.samp = (senseSlot p k u).1.bit ∧
      s'.sh = if s.op = 4#4 then shiftIn (senseSlot p k u).1.bit s.sh else s.sh := by
  have hlow : lowUs k (lowBit s.sh) = lowUs k false := by cases k <;> first | exact absurd rfl hkw | rfl
  have hl : lastPhase k = 2 := by cases k <;> first | exact absurd rfl hkw | rfl
  rw [enter_phase0 p _ s hp, hlow]
  obtain ⟨s1, r1, o1, b1, op1, ph1, bi1, sh1, _⟩ := follow_wait p k (lowUs k false) (by cases k <;> decide)
    (lineLevel s.lineId .low (lineDir s.lineId .output s)) (lineLevel u.lineId .low (lineDir u.lineId .output u))
    (by simpa using hb) (by rw [lineLevel_op, lineDir_op]; exact hk) (by rw [h.lineId]; exact (h.dir _ _).level _ _)
  simp only [lineLevel_phase, lineDir_phase, hp, lineLevel_op, lineDir_op, lineLevel_bitidx, lineDir_bitidx,
    lineLevel_sh, lineDir_sh] at ph1 op1 bi1 sh1
  have L1 : s1.lineId = u.lineId := by rw [o1.lineId]; simp
  have e1 : endOfWait p k s1 = enter p k { s1 with phase := 1 } := by simp [endOfWait, ph1, hl]
  rw [e1, enter_sense_phase1 _ _ hkw _ rfl] at r1
  obtain ⟨s2, r2, o2, b2, op2, ph2, bi2, sh2, _⟩ := follow_wait p k (settleUs k) (by cases k <;> decide)
    (lineDir s1.lineId .input (lineLevel s1.lineId .high { s1 with phase := 1 }))
    (lineDir s1.lineId .input (lineLevel s1.lineId .high
      (delay p (lowUs k false) (lineLevel u.lineId .low (lineDir u.lineId .output u)))))
    b1 (by simp [op1, hk]) (((o1.setPhase 1).level s1.lineId .high).dir s1.lineId .input)
  rw [L1] at o2
  simp only [lineLevel_phase, lineDir_phase, lineLevel_op, lineDir_op, lineLevel_bitidx, lineDir_bitidx,
    lineLevel_sh, lineDir_sh, op1, bi1, sh1] at ph2 op2 bi2 sh2
  have L2 : s2.lineId = u.lineId := by rw [o2.lineId]; simp
  have e2 : endOfWait p k s2 = enter p k { s2 with phase := 2 } := by simp [endOfWait, ph2, hl]
  rw [e2, enter_sense_phase2 _ _ hkw _ rfl] at r2
  have o2' := o2.setPhase (2 : BitVec 2)
  obtain ⟨s3, r3, o3, b3, op3, ph3, bi3, sh3, sa3⟩ := follow_wait p k (recoveryUs k) (by cases k <;> decide)
    (storeSample (lineSample p s2.lineId { s2 with phase := 2 }).1 (lineSample p s2.lineId { s2 with phase := 2 }).2)
    (lineSample p s2.lineId (delay p (settleUs k) (lineDir u.lineId .input (lineLevel u.lineId .high
      (delay p (lowUs k false) (lineLevel u.lineId .low (lineDir u.lineId .output u))))))).2
    b2 (by simp [op2, hk]) (o2'.sample p s2.lineId _)
  rw [L2] at o3
  have ans : (lineSample p s2.lineId { s2 with phase := 2 }).1 = (senseSlot p k u).1 := by
    simp only [senseSlot, opSenseSlot]
    refine (o2'.answer p s2.lineId).trans ?_
    rw [L2]
  refine ⟨s3, ?_, by simp only [senseSlot, opSenseSlot]; exact o3, b3, by simp [op3, op2], by simp [ph3],
    by simp [bi3, bi2], ?_, ?_⟩
  · convert (r1.trans r2).trans r3 using 1
    simp [senseSlot, opSenseSlot]; omega
  · rw [sa3, storeSample_samp, ans]
  · rw [sh3, storeSample_sh, ans, lineSample_op, lineSample_sh]; simp only [op2, sh2]

/-! ### Time does not go back at the operation level -/

theorem opWriteSlot_now_le (p : Params) (b : Bool) (u : State) : u.now ≤ (opWriteSlot p b u).now := by
  simp [opWriteSlot]; omega

theorem senseSlot_now_le (p : Params) (k : SlotKind) (u : State) : u.now ≤ (senseSlot p k u).2.now := by
  simp [senseSlot, opSenseSlot]; omega

theorem opWriteLoop_now_le (p : Params) (n : Nat) (v : Byte) (u : State) : u.now ≤ (opWriteLoop p n v u).now := by
  induction n generalizing v u with
  | zero => exact Nat.le_refl _
  | succ n ih => exact Nat.le_trans (opWriteSlot_now_le p _ u) (ih _ _)

theorem opReadLoop_now_le (p : Params) (n : Nat) (r : Byte) (u : State) : u.now ≤ (opReadLoop p n r u).2.now := by
  induction n generalizing r u with
  | zero => exact Nat.le_refl _
  | succ n ih => exact Nat.le_trans (senseSlot_now_le p .readSlot u) (ih _ _)

/-! ### The byte loops -/

/-- The edges of the remaining `n + 1` slots of `WRITE_BYTE` follow the operation level's loop, and complete. -/
theorem follow_writeLoop (p : Params) (n : Nat) (s u : State) (hb : s.busy = true) (ho : s.op = 3#4) (hp : s.phase = 0)
    (hn : s.bitidx.toNat + (n + 1) = 8) (h : Follows s u) :
    ∃ s', Reaches p (enter p .writeSlot s).tick ((opWriteLoop p (n + 1) s.sh u).now - u.now) (complete s').tick ∧
      Follows s' (opWriteLoop p (n + 1) s.sh u) ∧ s'.op = 3#4 := by
  induction n generalizing s u with
  | zero =>
    obtain ⟨s1, r1, o1, _, op1, ph1, bi1, _⟩ := follow_writeSlot p s u hb (by simp [ho, kindOf]) hp h
    have e : endOfWait p .writeSlot s1 = complete s1 := by
      have : ¬ s.bitidx < 7#3 := by rw [BitVec.lt_def]; simp; omega
      simp [endOfWait, ph1, lastPhase, bi1, this]
    exact ⟨s1, by rw [← e]; exact r1, o1, by rw [op1, ho]⟩
  | succ n ih =>
    obtain ⟨s1, r1, o1, b1, op1, ph1, bi1, sh1⟩ := follow_writeSlot p s u hb (by simp [ho, kindOf]) hp h
    have hlt : s.bitidx < 7#3 := by rw [BitVec.lt_def]; simp; omega
    have e : endOfWait p .writeSlot s1 =
        enter p .writeSlot { s1 with sh := shiftOut s1.sh, bitidx := s1.bitidx + 1, phase := 0 } := by
      simp [endOfWait, ph1, lastPhase, bi1, hlt, op1, ho, isByteOp, nextSlot]
    obtain ⟨s2, r2, o2, op2⟩ := ih { s1 with sh := shiftOut s1.sh, bitidx := s1.bitidx + 1, phase := 0 }
      (opWriteSlot p (lowBit s.sh) u) b1 (op1.trans ho) rfl (by
        show (s1.bitidx + 1).toNat + (n + 1) = 8
        rw [bi1, BitVec.toNat_add]; simp; omega)
      ⟨o1.1, o1.2, o1.3, o1.4, o1.5, o1.6, o1.7, o1.8, o1.9⟩
    rw [e] at r1
    have r := r1.trans r2
    simp only [sh1] at r o2
    have m1 := opWriteSlot_now_le p (lowBit s.sh) u
    have m2 := opWriteLoop_now_le p (n + 1) (shiftOut s.sh) (opWriteSlot p (lowBit s.sh) u)
    refine ⟨s2, ?_, o2, op2⟩
    convert r using 1
    rw [show opWriteLoop p (n + 1 + 1) s.sh u = opWriteLoop p (n + 1) (shiftOut s.sh) (opWriteSlot p (lowBit s.sh) u)
      from rfl]
    omega

/-- The edges of the remaining `n + 1` slots of `READ_BYTE` follow the operation level's loop, and complete. -/
theorem follow_readLoop (p : Params) (n : Nat) (s u : State) (hb : s.busy = true) (ho : s.op = 4#4) (hp : s.phase = 0)
    (hn : s.bitidx.toNat + (n + 1) = 8) (h : Follows s u) :
    ∃ s', Reaches p (enter p .readSlot s).tick ((opReadLoop p (n + 1) s.sh u).2.now - u.now) (complete s').tick ∧
      Follows s' (opReadLoop p (n + 1) s.sh u).2 ∧ s'.op = 4#4 ∧ s'.sh = (opReadLoop p (n + 1) s.sh u).1 := by
  induction n generalizing s u with
  | zero =>
    obtain ⟨s1, r1, o1, _, op1, ph1, bi1, _, sh1⟩ :=
      follow_senseSlot p .readSlot (by decide) s u hb (by simp [ho, kindOf]) hp h
    have e : endOfWait p .readSlot s1 = complete s1 := by
      have : ¬ s.bitidx < 7#3 := by rw [BitVec.lt_def]; simp; omega
      simp [endOfWait, ph1, lastPhase, bi1, this]
    rw [if_pos ho] at sh1
    exact ⟨s1, by rw [← e]; exact r1, o1, by rw [op1, ho], sh1⟩
  | succ n ih =>
    obtain ⟨s1, r1, o1, b1, op1, ph1, bi1, _, sh1⟩ :=
      follow_senseSlot p .readSlot (by decide) s u hb (by simp [ho, kindOf]) hp h
    rw [if_pos ho] at sh1
    have hlt : s.bitidx < 7#3 := by rw [BitVec.lt_def]; simp; omega
    have e : endOfWait p .readSlot s1 =
        enter p .readSlot { s1 with sh := s1.sh, bitidx := s1.bitidx + 1, phase := 0 } := by
      simp [endOfWait, ph1, lastPhase, bi1, hlt, op1, ho, isByteOp, nextSlot]
    obtain ⟨s2, r2, o2, op2, sh2⟩ := ih { s1 with sh := s1.sh, bitidx := s1.bitidx + 1, phase := 0 }
      (senseSlot p .readSlot u).2 b1 (op1.trans ho) rfl (by
        show (s1.bitidx + 1).toNat + (n + 1) = 8
        rw [bi1, BitVec.toNat_add]; simp; omega)
      ⟨o1.1, o1.2, o1.3, o1.4, o1.5, o1.6, o1.7, o1.8, o1.9⟩
    rw [e] at r1
    have r := r1.trans r2
    simp only [sh1] at r o2 sh2
    have m1 := senseSlot_now_le p .readSlot u
    have m2 := opReadLoop_now_le p (n + 1) (shiftIn (senseSlot p .readSlot u).1.bit s.sh) (senseSlot p .readSlot u).2
    refine ⟨s2, ?_, o2, op2, sh2⟩
    convert r using 1
    rw [show opReadLoop p (n + 1 + 1) s.sh u =
      opReadLoop p (n + 1) (shiftIn (senseSlot p .readSlot u).1.bit s.sh) (senseSlot p .readSlot u).2 from rfl]
    omega

end Sys2Proof.Machine
end

