-- ==== Sys2Proof/Tests/Slice0.lean ====
section
/-! SUPPORT. Tests on fixed values, taken from the spec's words, examples and vectors; and for every obligation that has
hypotheses, a witness that meets them. -/

namespace Sys2Proof.Tests

open Sys2Proof Sys2Proof.Machine

/-! ### Helpers -/

/-- The parameters of 95_test_vectors.md: one edge per microsecond, exact waits, line 4 accepted and every other line
rejected, the oracle given. -/
def paramsWith (o : SampleQuery → Level) : Params where
  ticksPerUs := 1
  ticksPos   := Nat.le_refl 1
  delay      := .exact
  platform   := fun id => if id = 4 then .ok else .err .first
  oracle     := o
  freeLatch  := fun _ => (.input, .high)
  freeLineId := fun _ => 0x77
  freePad    := fun _ => Pad.untouched
  freeCfgErr := fun _ => .first

/-- An oracle that answers by the index of the sample. -/
def scripted (ls : List Level) : SampleQuery → Level := fun q => ls.getD q.index .high

/-- Every sample reads High. -/
def p1 : Params := paramsWith (scripted [])

/-- The platform rejects every line with the error `e`, whatever value of the open type it is. -/
def rejecting (e : ConfigError) : Params := { p1 with platform := fun _ => .err e }

/-- Line 4 is the bus, the block idle, the pad released. -/
def ready4 : State :=
  { State.reset with lineId := 4, ready := true, pads := [(4, ⟨.bidirOpenDrain, true, false, false, .input, .high⟩)] }

/-- A command in flight on line 4: operation, phase, count, slot index, shift register and the pad's direction. -/
def flight (op : BitVec 4) (phase : BitVec 2) (cnt : Nat) (bitidx : BitVec 3) (sh : Byte) (d : Direction) (l : Level) :
    State :=
  { ready4 with
    busy := true, op := op, phase := phase, cnt := cnt, bitidx := bitidx, sh := sh,
    pads := [(4, ⟨.bidirOpenDrain, true, false, false, d, l⟩)] }

/-- The state an outcome goes on to, for tests that look at one field of it. -/
def after (o : Host.Outcome State Fault Refusal) : Option State :=
  match o with
  | .next s    => some s
  | .fault _   => none
  | .refused _ => none

/-! ### WellFormed refuses what each check is for (30_encoding.md R85, R89) -/

theorem test_opKnown_refuses : RawCmd.wellFormed ⟨0x8, 0x00⟩ = false ∧ RawCmd.opKnown ⟨0x8, 0x00⟩ = false := by decide
theorem test_opKnown_accepts_last : RawCmd.wellFormed ⟨0x7, 0x00⟩ = true := by decide
theorem test_bitOperandOk_refuses :
    RawCmd.wellFormed ⟨0x1, 0x02⟩ = false ∧ RawCmd.bitOperandOk ⟨0x1, 0x02⟩ = false := by decide
theorem test_bitOperandOk_accepts_last : RawCmd.wellFormed ⟨0x1, 0x01⟩ = true := by decide
theorem test_noOperandOk_refuses :
    RawCmd.wellFormed ⟨0x2, 0x01⟩ = false ∧ RawCmd.wellFormed ⟨0x4, 0x80⟩ = false ∧
    RawCmd.wellFormed ⟨0x5, 0x01⟩ = false ∧ RawCmd.wellFormed ⟨0x6, 0x01⟩ = false ∧
    RawCmd.wellFormed ⟨0x7, 0xFF⟩ = false := by decide

/-! ### Each constructor decodes from its word, written out bit by bit: `op`, then `arg` (30_encoding.md R84, R88) -/

theorem test_decode_init : decode 0b0000_00101010#12 = .command (.init 0x2A) := by decide
theorem test_decode_writeBit : decode 0b0001_00000001#12 = .command (.writeBit true) := by decide
theorem test_decode_readBit : decode 0b0010_00000000#12 = .command .readBit := by decide
theorem test_decode_writeByte : decode 0b0011_10100101#12 = .command (.writeByte 0xA5) := by decide
theorem test_decode_readByte : decode 0b0100_00000000#12 = .command .readByte := by decide
theorem test_decode_owReset : decode 0b0101_00000000#12 = .command .owReset := by decide
theorem test_decode_ppEnable : decode 0b0110_00000000#12 = .command .ppEnable := by decide
theorem test_decode_ppDisable : decode 0b0111_00000000#12 = .command .ppDisable := by decide

/-- The table's numbering: bit 0 is the least significant bit of the one word; a bit above the port is no word. -/
theorem test_decodeTableWord :
    decodeTableWord 16 0x3A5 = some (.writeByte 0xA5) ∧ decodeTableWord 12 0xF3A5 = some (.writeByte 0xA5) ∧
    decodeTableWord 16 0x1000 = none ∧ decodeTableWord 16 0x102 = none := by decide

/-- Every row of the map has its own operation code. -/
theorem test_rows_apart : (opcodeRows.map OpcodeRow.pattern).Nodup := by decide

/-! ### One step of each command -/

/-- 41_init.md R120, example `INIT 4`. -/
theorem test_init_ok :
    (acceptInit p1 4 State.reset).events = [.configure 4 .ok] ∧ (acceptInit p1 4 State.reset).lineId = 4 ∧
    statusByte (acceptInit p1 4 State.reset) = 0x02 := by decide

/-- 41_init.md R121, example `INIT 0x2A` rejected, after an `INIT` that succeeded. -/
theorem test_init_rejected (e : ConfigError) :
    (acceptInit (rejecting e) 0x2A ready4).events = [.configure 0x2A (.err e)] ∧
    statusByte (acceptInit (rejecting e) 0x2A ready4) = 0x04 ∧
    cfgerrPort (rejecting e) (acceptInit (rejecting e) 0x2A ready4) = e :=
  ⟨rfl, by simp [statusByte, acceptInit, lineConfigure, rejecting, raise, ready4, State.emit, State.setPad, State.reset,
    ErrCode.bits], rfl⟩

/-- 42_bit_transport.md R130, example `WRITE_BIT 1`. -/
theorem test_writeBit_one :
    (operate p1 (.writeBit true) ready4).events =
      [.dir 4 .output, .level 4 .low, .wait 6, .level 4 .high, .wait 64] ∧
    (operate p1 (.writeBit true) ready4).now = 70 := by decide

/-- 42_bit_transport.md R130, example `WRITE_BIT 0`: the edge at which its low time of 60 ends. -/
theorem test_writeBit_zero_released :
    ((after (tickEdge p1 Pins.idle (flight 1 0 1 0 0x00 .output .low))).map fun t =>
      (t.events, t.phase, t.cnt, drives t 4)) = some ([.level 4 .high, .wait 10], 1, 10, false) := by decide

/-- 42_bit_transport.md R133, the example, the oracle answering Low. -/
theorem test_readBit_low :
    (operate (paramsWith (scripted [.low])) .readBit { ready4 with result := 0xFF }).events =
      [.dir 4 .output, .level 4 .low, .wait 6, .level 4 .high, .dir 4 .input, .wait 9, .sample 4 .low, .wait 55] ∧
    (operate (paramsWith (scripted [.low])) .readBit { ready4 with result := 0xFF }).result = 0x00 := by decide

/-- 42_bit_transport.md R133: `RESULT` keeps its old value at the edge of the sample. -/
theorem test_readBit_sample_edge :
    ((after (tickEdge p1 Pins.idle (flight 2 1 1 0 0x00 .input .high))).map fun t =>
      (t.events, t.samp, t.result, t.cnt)) = some ([.sample 4 .high, .wait 55], true, 0x00, 55) := by decide

/-- 43_byte_transport.md R140, the example `WRITE_BYTE 0xA5`: the widths of the low pulses, in order. -/
theorem test_writeByte_pulses :
    ((operate p1 (.writeByte 0xA5) ready4).events.filter fun e =>
      e = .wait 6 || e = .wait 60) =
      [.wait 6, .wait 60, .wait 6, .wait 60, .wait 60, .wait 6, .wait 60, .wait 6] ∧
    (operate p1 (.writeByte 0xA5) ready4).now = 560 := by decide

/-- 40_execution_model.md R110, R112: the next slot starts at the edge that ends the last, with the next bit. -/
theorem test_writeByte_next_slot :
    ((after (tickEdge p1 Pins.idle (flight 3 1 1 6 0x03 .output .high))).map fun t =>
      (t.events, t.sh, t.bitidx, t.phase)) =
      some ([.dir 4 .output, .level 4 .low, .wait 6], 0x01, 7, 0) := by decide

/-- 43_byte_transport.md R143, the example: the bits 1, 0, 1, 0, 0, 1, 0, 1 make 0xA5. -/
theorem test_readByte_A5 :
    (operate (paramsWith (scripted [.high, .low, .high, .low, .low, .high, .low, .high])) .readByte ready4).result
      = 0xA5 := by decide

/-- 43_byte_transport.md R144: only the first bit is 1; the accumulator after its sample is 0x80. -/
theorem test_readByte_first_sample :
    ((after (tickEdge p1 Pins.idle (flight 4 1 1 0 0x00 .input .high))).map fun t => t.sh) = some 0x80 := by decide

/-- 44_reset_presence.md R150, the example: Low at the sample is presence, High is none. -/
theorem test_owReset_presence :
    (operate (paramsWith (scripted [.low])) .owReset ready4).result = 0x01 ∧
    (operate p1 .owReset { ready4 with result := 0xFF }).result = 0x00 ∧
    (operate p1 .owReset ready4).now = 960 := by decide

/-- 40_execution_model.md R113: the completion edge inverts the sample. -/
theorem test_owReset_completes :
    ((after (tickEdge p1 Pins.idle { flight 5 2 1 0 0x00 .input .high with samp := false })).map fun t =>
      (t.result, t.busy)) = some (0x01, false) := by decide

/-- 45_parasite_power_hooks.md R160, the example, with `READY = 1`. -/
theorem test_ppEnable_status : statusByte (acceptPpEnable ready4) = 0x0E := by decide

/-- 45_parasite_power_hooks.md R161, the example, with `READY = 0`. -/
theorem test_ppDisable_status : statusByte (acceptPpDisable State.reset) = 0x0C := by decide

/-- 60_exceptions.md R179: `WRITE_BIT` with `arg = 0x02` reports `ILLEGAL_CMD` even with `READY = 0`. -/
theorem test_illegal_before_not_ready :
    ((after (tickEdge p1 (Pins.present 0x102) State.reset)).map fun t => t.err) = some 2 := by decide

/-- 70_reset_and_hazards.md R200: a command presented at an edge with `hreset = 1` is not accepted. -/
theorem test_hreset_overrides :
    ((after (tickEdge p1 ⟨true, true, 0x600⟩ ready4)).map fun t => (t.err, t.ready, t.events)) =
      some (0, false, []) := by decide

/-- 10_state.md R29: the register map, its readable numbers and those that are not. -/
theorem test_register_map :
    readReg p1 1 ready4 = some (.byte 0x02) ∧ readReg p1 3 ready4 = some (.byte 0x04) ∧
    readReg p1 0 ready4 = none ∧ readReg p1 5 ready4 = none := by decide

/-- 40_execution_model.md R118: a run of one command: over only when the word is presented and `BUSY = 0`. -/
theorem test_run_over :
    runOver (State.reset.withRun [(0, 0x600)]) = false ∧ runOver State.reset = true ∧
    (runOutcome p1 State.reset).ports.status = 0x00 := by decide

/-- 00_scope.md R7: `CNT_W` is 9 for `TICKS_PER_US = 1`. -/
theorem test_cntWidth : p1.cntWidth = 9 := by decide

/-- The fetch of the first instruction after reset. -/
theorem test_withFetchWord :
    pinsNow (State.reset.withFetchWord 12 0x3A5) = Pins.present 0x3A5 ∧
    (State.reset.withFetchWord 12 0x3A5).hostMoved = State.reset := by decide

/-- 95_test_vectors.md, the test devices: no device reads High, a responder answers the presence sample only. -/
theorem test_devices :
    (operate (paramsWith noDeviceOracle) .owReset ready4).result = 0x00 ∧
    (operate (paramsWith presenceOracle) .owReset ready4).result = 0x01 ∧
    (operate (paramsWith presenceOracle) .readBit ready4).result = 0x01 := by decide

/-! ### Witnesses: the hypotheses of every obligation can be met -/

theorem witness_EncodeOfDecode : decode 0x3A5 = .command (.writeByte 0xA5) ∧ decode 0x1FF ≠ .command .readBit := by
  decide

/-- The boundary values of each clause: `arg` 0, 1, 2 for `op = 1`, 0 and 1 where no operand is taken, `op = 8`. -/
theorem witness_DecodeByFields :
    decode (0x0#4 ++ 0xFF#8) = .command (.init 0xFF) ∧ decode (0x1#4 ++ 0x00#8) = .command (.writeBit false) ∧
    decode (0x1#4 ++ 0x01#8) = .command (.writeBit true) ∧ (1 : Byte) < 2 ∧
    decode (0x1#4 ++ 0x02#8) = .illegal .bitOperand ∧ decode (0x3#4 ++ 0x00#8) = .command (.writeByte 0) ∧
    (0x01#8 : Byte) ≠ 0 ∧ decode (0x2#4 ++ 0x01#8) = .illegal .unusedOperand ∧
    decode (0x7#4 ++ 0x01#8) = .illegal .unusedOperand ∧ (8 : BitVec 4) ≤ 8 ∧
    decode (0x8#4 ++ 0x00#8) = .illegal .reservedOpcode := by decide

theorem witness_OneRowPerWord :
    (opcodeRows.filter fun r => r.selects 0x101) = [⟨"WRITE_BIT", 0xFFE, 0x100⟩] ∧
    (opcodeRows.filter fun r => r.selects 0x102) = [] := by decide

theorem witness_IllegalWordEnds :
    accepts (Pins.present 0x102) State.reset = true ∧ decode (Pins.present 0x102).cmd = .illegal .bitOperand := by decide

theorem witness_Starts : ready4.ready = true := rfl

theorem witness_NotReadyEndsTimedCommands :
    Instr.timed .readBit = true ∧ State.reset.ready = false ∧ accepts (Pins.present 0x200) State.reset = true ∧
    decode (Pins.present 0x200).cmd = .command .readBit := by decide

theorem witness_AcceptanceFrame_hook : exec .ppEnable State.reset = .next { State.reset with err := 3 } := rfl

theorem witness_AcceptanceFrame_timed :
    ∃ t, exec (.writeBit true) ready4 = .next t ∧ padTarget (.writeBit true) ready4 = some 4 ∧
      padTarget (.init 9) ready4 = some 9 ∧ padTarget .readBit State.reset = none := ⟨_, rfl, rfl, rfl, rfl⟩

theorem witness_ConfigErrorPropagated : p1.platform 5 = .err .first ∧ ∀ id, Instr.ppEnable ≠ .init id := by
  exact ⟨by decide, fun _ h => Instr.noConfusion h⟩

theorem witness_StepRunsDecodedInstruction :
    accepts (pinsNow (State.reset.withFetchWord 12 0x600)) (State.reset.withFetchWord 12 0x600) = true ∧
    decode (pinsNow (State.reset.withFetchWord 12 0x600)).cmd = .command .ppEnable ∧
    decodeTableWord 12 0x600 = some .ppEnable := by decide

theorem witness_RunPresentsCommand :
    (State.reset.withRun [(0, 0x600), (1, 0x200)]).host = .command 0 0x600 :: [.command 1 0x200] ∧
    (State.reset.withRun [(1, 0x200)]).host = .command (0 + 1) 0x200 :: [] ∧
    (State.reset.withRun [(1, 0x200)]).busy = false ∧
    ((flight 1 0 1 0 0 .output .low).withRun [(0, 0x200)]).busy = true := by decide

theorem witness_AcceptedExactlyWhen :
    (Pins.present 0x600).hreset = false ∧ (Pins.present 0x600).cmdValid = true ∧ State.reset.busy = false ∧
    Pins.idle.cmdValid = false ∧ (flight 1 0 1 0 0 .output .low).busy = true := by decide

theorem witness_ErrorPriority :
    accepts (Pins.present 0x600) State.reset = true ∧ (⟨true, true, 0x600⟩ : Pins).hreset = true ∧
    State.reset.busy = false := by decide

theorem witness_AcceptanceRule :
    accepts (Pins.present 0x800) ready4 = true ∧ decode 0x800 = .illegal .reservedOpcode ∧
    decode 0x600 = .command .ppEnable ∧ decode 0x700 = .command .ppDisable ∧ decode 0x004 = .command (.init 4) ∧
    decode 0x101 = .command (.writeBit true) ∧ Instr.timed (.writeBit true) = true ∧ State.reset.ready = false ∧
    ready4.ready = true := by decide

/-- One state per case, at the boundaries: `CNT` 2 and 1, the phase before the last and the last, `BITIDX` 6 and 7. -/
theorem witness_SequencerEdgeCases :
    kindOf 1#4 = some .writeSlot ∧ (1 : Nat) < (flight 1 0 2 0 0 .output .low).cnt ∧
    (flight 1 0 1 0 0 .output .low).phase < lastPhase .writeSlot ∧
    ¬ (flight 3 1 1 6 0 .output .high).phase < lastPhase .writeSlot ∧ (flight 3 1 1 6 0 .output .high).bitidx < 7 ∧
    ¬ (flight 3 1 1 7 0 .output .high).bitidx < 7 ∧ kindOf 4#4 = some .readSlot ∧
    (flight 4 1 1 0 0 .input .high).phase < lastPhase .readSlot ∧ kindOf 5#4 = some .resetSeq ∧
    noReset [Pins.idle] = true ∧ [Pins.idle].length + 1 = (flight 1 0 2 0 0 .output .low).cnt := by decide

theorem witness_WaitCountsItsEdges :
    noReset [Pins.idle] = true ∧ (flight 1 0 2 0 0 .output .low).busy = true ∧
    [Pins.idle].length < (flight 1 0 2 0 0 .output .low).cnt ∧ p1.delay = .exact := ⟨rfl, rfl, by decide, rfl⟩

theorem witness_CompletionWritesResult :
    Pins.idle.hreset = false ∧ (flight 2 2 1 0 0 .input .high).cnt = 1 ∧ kindOf 2#4 = some .readSlot ∧
    (flight 2 2 1 0 0 .input .high).phase = lastPhase .readSlot ∧ (flight 4 2 1 7 0 .input .high).bitidx = 7 ∧
    (flight 3 1 1 7 0 .output .high).phase = lastPhase .writeSlot ∧
    (flight 5 2 1 0 0 .input .high).phase = lastPhase .resetSeq := by decide

theorem witness_SequencerFrame :
    (after (tickEdge p1 Pins.idle (flight 2 1 1 0 0 .input .high))).isSome = true ∧
    ((after (tickEdge p1 Pins.idle (flight 2 2 1 0 0 .input .high))).map State.busy) = some false := by decide

theorem witness_ReadyWrittenOnlyBy :
    ((after (tickEdge p1 (Pins.present 0x004) State.reset)).map State.ready) = some true ∧
    ((after (tickEdge p1 (Pins.present 0x005) ready4)).map State.ready) = some false := by decide

theorem witness_ResultAndLineIdWrittenOnlyBy :
    ((after (tickEdge p1 Pins.idle { flight 4 2 1 7 0xA5 .input .high with result := 0 })).map State.result)
      = some 0xA5 ∧
    ((after (tickEdge p1 (Pins.present 0x004) State.reset)).map State.lineId) = some 4 := by decide

theorem witness_TraceOnlyGrows :
    ((after (tickEdge p1 (Pins.present 0x100) ready4)).map fun t => t.trace.length) = some 3 := by decide

theorem witness_SampleActionEffect : (flight 4 2 1 0 0 .input .high).op = 4 ∧ (flight 2 2 1 0 0 .input .high).op ≠ 4 := by
  decide

theorem witness_DrivesExactlyWhen :
    drives (flight 1 0 1 0 0 .output .low) 4 = true ∧
    ((flight 1 1 1 0 0 .output .high).pad 4).dir = .output ∧ ((flight 1 1 1 0 0 .output .high).pad 4).out = .high := by
  decide

theorem witness_LineLevelEffect :
    ((flight 1 1 1 0 0 .output .high).pad 4).mode = .bidirOpenDrain ∧
    ((flight 1 1 1 0 0 .output .high).pad 4).dir = .output := by decide

/-- An environment with no device and an effective pull-up. -/
def quiet : Environment := ⟨fun _ => false, fun _ => true, fun _ => .low⟩

/-- An environment in which a device pulls low from `a` to before `b` microseconds after each reset pulse is released
(one edge per microsecond). -/
def pulse (a b : Nat) : Environment where
  pullsLow q := match q.trace.reverse with
    | ⟨t, .wait 70⟩ :: _ => decide (t + a ≤ q.time ∧ q.time < t + b)
    | _ => false
  pullUp _ := true
  floating _ := .low

/-- Two lines, a device on line 5 only. -/
def onLine5 : Environment := ⟨fun q => q.line = 5, fun _ => true, fun _ => .low⟩

/-- 20_memory.md R59: "some device on the line": at one instant two undriven lines may differ. -/
theorem test_lines_apart : lineLevelAt onLine5 ready4 4 = .high ∧ lineLevelAt onLine5 ready4 5 = .low := by decide

/-- 44_reset_presence.md R152: a pulse that starts 30 microseconds after the release and covers the sample at 70 is
seen; one that starts after the sample, or ends before it, is not. -/
theorem test_presence_instant :
    (operate (paramsWith (pulse 30 130).oracle) .owReset ready4).result = 0x01 ∧
    (operate (paramsWith (pulse 71 130).oracle) .owReset ready4).result = 0x00 ∧
    (operate (paramsWith (pulse 15 70).oracle) .owReset ready4).result = 0x00 := by decide

theorem witness_LineLevelRule :
    drives (flight 1 0 1 0 0 .output .low) 4 = true ∧ drives ready4 4 = false ∧
    quiet.pullsLow (ready4.query 4) = false ∧ quiet.pullUp (ready4.query 4) = true ∧
    onLine5.pullsLow (ready4.query 5) = true ∧
    (⟨fun _ => false, fun _ => false, fun _ => .low⟩ : Environment).pullUp (ready4.query 4) = false ∧
    (paramsWith quiet.oracle).oracle = quiet.oracle := ⟨by decide, by decide, rfl, rfl, by decide, rfl, rfl⟩

/-- A read slot about to sample meets the invariant. -/
theorem witness_Inv_reading : Inv p1 (flight 2 1 1 0 0 .input .high) := by
  constructor <;> first | decide | (intro _; decide)

/-- A write slot in its low time meets the invariant. -/
theorem witness_Inv_driving : Inv p1 (flight 1 0 6 0 1 .output .low) := by
  constructor <;> first | decide | (intro _; decide)

theorem witness_SamplesOnlyUndriven :
    ((after (tickEdge p1 Pins.idle (flight 2 1 1 0 0 .input .high))).map fun t =>
      t.trace.drop (flight 2 1 1 0 0 .input .high).trace.length) =
      some [⟨0, .sample 4 .high⟩, ⟨0, .wait 55⟩] := by decide

theorem witness_HresetWhileIdle :
    (⟨true, false, 0⟩ : Pins).hreset = true ∧ ready4.busy = false ∧ (flight 1 0 6 0 1 .output .low).busy = true := by
  decide

theorem witness_StepKeepsInv : Inv Config.params State.reset ∧ step State.reset = .next State.reset.tick := by
  refine ⟨?_, rfl⟩
  constructor <;> first | decide | exact fun _ => Nat.zero_le _

theorem witness_DutifulEdgesAdvance :
    HostDuty Pins.idle (flight 2 1 1 0 0 .input .high) ∧ HostDuty ⟨true, false, 0⟩ ready4 :=
  ⟨fun h => absurd h (by decide), fun _ => rfl⟩

theorem witness_LevelsAgree :
    Instr.timed (.writeBit true) = true ∧ noReset (List.replicate 70 Pins.idle) = true ∧
    ready4.now + (List.replicate 70 Pins.idle).length = (operate p1 (.writeBit true) ready4).now ∧
    ready4.now + (List.replicate 69 Pins.idle).length < (operate p1 (.writeBit true) ready4).now := by decide

theorem witness_ExecRunsToTable :
    noReset (List.replicate (durationUs .owReset * Config.params.ticksPerUs) Pins.idle) = true ∧
    (List.replicate (durationUs .owReset * Config.params.ticksPerUs) Pins.idle).length =
      durationUs .owReset * Config.params.ticksPerUs :=
  ⟨by simp [noReset, Pins.idle], List.length_replicate⟩

theorem witness_OperationTable :
    Instr.timed .owReset = true ∧ ready4.ready = true ∧ State.reset.ready = false ∧
    decode 0x9FF = .illegal .reservedOpcode := by decide

theorem witness_LoopbackRoundTrip :
    (paramsWith loopbackOracle).oracle = loopbackOracle ∧ ready4.ready = true ∧ loopQueue [] ready4.events = [] :=
  ⟨rfl, rfl, rfl⟩

/-- A device that starts 30 microseconds after the release meets the premise, which asks for the sample instant only;
with a presence sample to ask it at. -/
theorem witness_PresenceOutcome :
    NoDevice quiet ∧ PresenceResponder (paramsWith (pulse 30 130).oracle) (pulse 30 130) ∧
    (paramsWith (pulse 30 130).oracle).oracle = (pulse 30 130).oracle ∧ ready4.ready = true := by
  refine ⟨⟨fun _ => rfl, fun _ => rfl⟩, ⟨fun _ => rfl, fun q h => ?_⟩, rfl, rfl⟩
  unfold SampleQuery.atPresenceSample at h
  split at h
  · rename_i e
    simp only [Bool.and_eq_true, decide_eq_true_eq] at h
    obtain ⟨⟨rfl, -⟩, ht⟩ := h
    simp only [waitTicks, paramsWith, Config.tRstWait] at ht
    simp only [pulse, e, Config.tRstWait, decide_eq_true_eq]
    omega
  · cases h

/-- A ready state, another oracle that agrees at the one query, and an environment's oracle. -/
theorem witness_OneSampleDecides :
    ready4.ready = true ∧ p1.delay = .exact ∧ (presenceQuery p1 ready4).time = 550 ∧
    presenceOracle (presenceQuery p1 ready4) = (pulse 30 130).oracle (presenceQuery p1 ready4) ∧
    (paramsWith quiet.oracle).oracle = quiet.oracle := ⟨rfl, rfl, by decide, by decide, rfl⟩

/-- Two states that differ in what samples returned, one edge of each kind of outcome. -/
theorem witness_SamplesSteerNothing :
    SameButSamples (flight 4 1 1 0 0x00 .input .high) { flight 4 1 1 0 0x00 .input .high with samp := true, sh := 0x80 } ∧
    (after (tickEdge p1 Pins.idle (flight 4 1 1 0 0x00 .input .high))).isSome = true ∧
    tickEdge p1 Pins.idle (flight 0 0 1 0 0x00 .input .high) = .fault .noSlotKind ∧
    tickEdge p1 ⟨true, false, 0⟩ (flight 4 1 1 0 0x00 .input .high) = .refused .hresetWhileBusy :=
  ⟨⟨rfl, rfl, fun h => absurd h (by decide)⟩, by decide, rfl, rfl⟩

end Sys2Proof.Tests
end

section
/-! PROOFS. The fields of `STATUS` (10_state.md R28). -/

namespace Sys2Proof.Machine

theorem statusByte_busyBit (s : State) : (statusByte s).getLsbD 0 = s.busy :=
  calc (statusByte s).getLsbD 0
    _ = (BitVec.ofBool s.busy).getLsbD 0 := BitVec.getLsbD_append
    _ = s.busy := BitVec.getLsbD_ofBool s.busy 0

theorem statusByte_readyBit (s : State) : (statusByte s).getLsbD 1 = s.ready :=
  calc (statusByte s).getLsbD 1
    _ = (0#3 ++ s.err ++ BitVec.ofBool s.ready).getLsbD 0 := BitVec.getLsbD_append
    _ = (BitVec.ofBool s.ready).getLsbD 0 := BitVec.getLsbD_append
    _ = s.ready := BitVec.getLsbD_ofBool s.ready 0

theorem statusByte_errField (s : State) : (statusByte s).extractLsb' 2 3 = s.err :=
  calc (statusByte s).extractLsb' 2 3
    _ = (0#3 ++ s.err ++ BitVec.ofBool s.ready).extractLsb' 1 3 := BitVec.extractLsb'_append_eq_of_le (by decide)
    _ = (0#3 ++ s.err).extractLsb' 0 3 := BitVec.extractLsb'_append_eq_of_le (by decide)
    _ = s.err := BitVec.extractLsb'_append_eq_right

theorem statusByte_topField (s : State) : (statusByte s).extractLsb' 5 3 = 0#3 :=
  calc (statusByte s).extractLsb' 5 3
    _ = (0#3 ++ s.err ++ BitVec.ofBool s.ready).extractLsb' 4 3 := BitVec.extractLsb'_append_eq_of_le (by decide)
    _ = (0#3 ++ s.err).extractLsb' 3 3 := BitVec.extractLsb'_append_eq_of_le (by decide)
    _ = 0#3 := BitVec.extractLsb'_append_eq_left

/-- Settles O41: `STATUS` is a concatenation, and each field is read off at its offset in it. -/
theorem statusPacking : Obligations.StatusPacking :=
  ⟨fun s => ⟨statusByte_busyBit s, statusByte_readyBit s, statusByte_errField s, statusByte_topField s⟩, by decide⟩

end Sys2Proof.Machine
end

section
/-! PROOFS. What writes `READY` (10_state.md R23): per operation of an edge, the `READY` it leaves. -/

namespace Sys2Proof.Machine

@[simp] theorem hardReset_ready (p : Params) (s : State) : (hardReset p s).ready = false := rfl

@[simp] theorem enter_ready (p : Params) (k : SlotKind) (s : State) : (enter p k s).ready = s.ready :=
  (enter_sameControl p k s).ready

theorem endOfWait_ready (p : Params) (k : SlotKind) (s : State) : (endOfWait p k s).ready = s.ready := by
  obtain ⟨-, e⟩ | ⟨-, -, -, e⟩ | ⟨-, -, e⟩ := endOfWait_cases p k s <;> rw [e]
  · exact enter_ready p k _
  · exact enter_ready p k _
  · rfl

theorem sequencerEdge_ready {p : Params} {s t : State} (h : sequencerEdge p s = .next t) : t.ready = s.ready := by
  obtain ⟨-, e⟩ | ⟨-, k, -, e⟩ | ⟨-, -, e⟩ := sequencerEdge_cases p s <;> rw [e] at h <;> cases h
  · rfl
  · exact endOfWait_ready p k s

theorem acceptTimed_ready (p : Params) (k : SlotKind) (i : Instr) (s : State) :
    (acceptTimed p k i s).ready = s.ready := by
  unfold acceptTimed
  split
  · exact enter_ready p k _
  · rfl

/-- `INIT` leaves the platform's answer in `READY` (41_init.md R120). -/
theorem accept_init_ready (p : Params) (id : LineId) (s : State) :
    (accept p (.init id) s).ready = decide (p.platform id = .ok) := by
  simp only [accept, acceptInit, lineConfigure_answer]
  cases p.platform id <;> rfl

/-- No command but `INIT` writes `READY`. -/
theorem accept_ready_of_ne_init (p : Params) {i : Instr} (hi : ∀ id, i ≠ .init id) (s : State) :
    (accept p i s).ready = s.ready := by
  cases i with
  | init id => exact absurd rfl (hi id)
  | writeBit _ | readBit | writeByte _ | readByte | owReset => exact acceptTimed_ready p _ _ s
  | ppEnable | ppDisable => rfl

/-- Settles O28, by the cases of an edge: only `HRESET` and the acceptance of an `INIT` write `READY`. -/
theorem readyWrittenOnlyBy : Obligations.ReadyWrittenOnlyBy := by
  refine ⟨rfl, fun p x s t h => ?_⟩
  obtain ⟨-, -, e⟩ | ⟨hx, -, e⟩ | ⟨hx, hb, e⟩ | ⟨hx, -, -, ⟨why, hd⟩, e⟩ | ⟨hx, hb, hv, i, hd, e⟩ |
    ⟨hx, -, hv, e⟩ := tickEdge_cases p x s <;> rw [e] at h
  · cases h
  · cases h; simp [hx]
  · obtain ⟨u, hu, rfl⟩ := onNext_eq_next.mp h
    simp [hx, hb, accepts, sequencerEdge_ready hu]
  · cases h; simp [hx, hd]
  · cases h
    by_cases hi : ∃ id, i = .init id
    · obtain ⟨id, rfl⟩ := hi
      simp [hx, hb, hv, hd, accepts, accept_init_ready]
    · have hn : ∀ id, i ≠ .init id := fun id he => hi ⟨id, he⟩
      simp only [hx, hd, State.tick_ready, accept_ready_of_ne_init p hn, Bool.false_eq_true, if_false]
      split
      · next id _ he => exact absurd (Decoded.command.inj he) (hn id)
      · rfl
  · cases h; simp [hx, hv, accepts]

end Sys2Proof.Machine
end

section
/-! PROOFS. When the block drives a line (20_memory.md R58), and what `LineDir` does to it (R55). -/

namespace Sys2Proof.Machine

theorem drives_iff (s : State) (id : LineId) :
    drives s id = true ↔
      (s.pad id).mode = .bidirOpenDrain ∧ (s.pad id).dir = .output ∧ (s.pad id).out = .low := by
  simp only [drives, Bool.and_eq_true, decide_eq_true_eq, and_assoc]

theorem drives_eq_false_of_input {s : State} {id : LineId} (h : (s.pad id).dir = .input) : drives s id = false := by
  refine Bool.eq_false_iff.mpr fun hd => ?_
  obtain ⟨-, hdir, -⟩ := (drives_iff s id).mp hd
  cases h.symm.trans hdir

theorem drives_eq_false_of_high {s : State} {id : LineId} (h : (s.pad id).out = .high) : drives s id = false := by
  refine Bool.eq_false_iff.mpr fun hd => ?_
  obtain ⟨-, -, hout⟩ := (drives_iff s id).mp hd
  cases h.symm.trans hout

/-- Settles O35: `drives` is the conjunction of R58, and a high latch contradicts its last part. -/
theorem drivesExactlyWhen : Obligations.DrivesExactlyWhen :=
  fun s id => ⟨drives_iff s id, fun _ hout => drives_eq_false_of_high hout⟩

/-- A line whose pad has just been turned to Input is released, whatever its latch holds. -/
theorem drives_lineDir_input (id : LineId) (s : State) : drives (lineDir id .input s) id = false :=
  drives_eq_false_of_input (congrArg Pad.dir (pad_lineDir_same s id .input))

/-- Settles O31, from the rules for the pads after `LineDir`; outside the pads it only appends its event. -/
theorem lineDirEffect : Obligations.LineDirEffect := by
  refine fun id d s => ⟨pad_lineDir_same s id d, fun a ha => pad_lineDir_other ha s d, rfl, ?_⟩
  rintro rfl
  exact drives_lineDir_input id s

end Sys2Proof.Machine
end

section
/-! PROOFS. The two fields of a word, and the words of the commands (30_encoding.md R84, R85, R87). -/

namespace Sys2Proof

@[simp] theorem opField_append (o : BitVec 4) (a : Byte) : opField (o ++ a) = o :=
  congrArg RawCmd.op (Laws.Encodes.rawOf_append o a)

@[simp] theorem argField_append (o : BitVec 4) (a : Byte) : argField (o ++ a) = a :=
  congrArg RawCmd.arg (Laws.Encodes.rawOf_append o a)

theorem opField_append_argField (w : Word) : opField w ++ argField w = w :=
  BitVec.extractLsb'_append_extractLsb' (w := 4) (len := 8)

/-- A word is its two fields. -/
theorem word_eq_iff {w v : Word} : w = v ↔ opField w = opField v ∧ argField w = argField v := by
  refine ⟨fun h => h ▸ ⟨rfl, rfl⟩, fun ⟨hop, harg⟩ => ?_⟩
  rw [← opField_append_argField w, hop, harg, opField_append_argField]

@[simp] theorem opField_encode (i : Instr) : opField (encode i) = i.opcode := opField_append _ _

@[simp] theorem argField_encode (i : Instr) : argField (encode i) = i.operand := argField_append _ _

theorem encode_eq_iff {i : Instr} {w : Word} : encode i = w ↔ opField w = i.opcode ∧ argField w = i.operand := by
  rw [eq_comm, word_eq_iff, opField_encode, argField_encode]

/-- The constraint of R85 on the operand of `WRITE_BIT`: the field holds a bit. -/
theorem highBits_eq_zero_iff (a : Byte) : a.extractLsb' 1 7 = 0 ↔ a = 0 ∨ a = 1 := by
  rw [← BitVec.toNat_inj, ← BitVec.toNat_inj, ← BitVec.toNat_inj, BitVec.extractLsb'_toNat, Nat.shiftRight_one]
  have := a.isLt
  show a.toNat / 2 % 128 = 0 ↔ a.toNat = 0 ∨ a.toNat = 1
  omega

theorem decodePlain_eq_command_iff {i j : Instr} {a : Byte} : decodePlain j a = .command i ↔ a = 0 ∧ j = i := by
  unfold decodePlain
  split <;> simp_all

/-- The decoder reads back every command. -/
@[simp] theorem decode_encode (i : Instr) : decode (encode i) = .command i := by
  cases i with
  | writeBit b => cases b <;> rfl
  | init _ | writeByte _ => simp [decode, Instr.opcode, Instr.operand]
  | readBit | readByte | owReset | ppEnable | ppDisable => rfl

/-- A word that decodes to a command has that command's fields. -/
theorem encode_of_decode {i : Instr} {w : Word} (h : decode w = .command i) : encode i = w := by
  rw [encode_eq_iff]
  unfold decode at h
  split at h
  case h_1 hop | h_4 hop => cases h; exact ⟨hop, rfl⟩
  case h_2 hop =>
    dsimp only at h
    split at h
    · next hbit =>
      cases h
      refine ⟨hop, ?_⟩
      obtain harg | harg := (highBits_eq_zero_iff _).mp hbit <;> rw [harg] <;> rfl
    · cases h
  case h_9 => cases h
  all_goals
    next hop =>
    obtain ⟨harg, rfl⟩ := decodePlain_eq_command_iff.mp h
    exact ⟨hop, harg⟩

/-- The word of a command is the one word that decodes to it. -/
theorem decode_eq_command_iff {w : Word} {i : Instr} : decode w = .command i ↔ encode i = w :=
  ⟨encode_of_decode, fun h => h ▸ decode_encode i⟩

/-- A command is one of the eight of the opcode map. -/
theorem Instr.exists_iff {P : Instr → Prop} :
    (∃ i, P i) ↔ (∃ id, P (.init id)) ∨ (P (.writeBit false) ∨ P (.writeBit true)) ∨ P .readBit ∨
      (∃ v, P (.writeByte v)) ∨ P .readByte ∨ P .owReset ∨ P .ppEnable ∨ P .ppDisable := by
  constructor
  · rintro ⟨i, h⟩
    cases i with
    | init id => exact .inl ⟨id, h⟩
    | writeByte v => simp only [show ∃ v, P (.writeByte v) from ⟨v, h⟩, true_or, or_true]
    | writeBit b => cases b <;> simp only [h, true_or, or_true]
    | readBit | readByte | owReset | ppEnable | ppDisable => simp only [h, true_or, or_true]
  · rintro (⟨id, h⟩ | (h | h) | h | ⟨v, h⟩ | h | h | h | h) <;> exact ⟨_, h⟩

/-- The legal words, by their fields, in the order of the opcode map (R85, R88). -/
theorem exists_decode_eq_command_iff (w : Word) :
    (∃ i, decode w = .command i) ↔
      opField w = 0 ∨ (opField w = 1 ∧ (argField w = 0 ∨ argField w = 1)) ∨ (opField w = 2 ∧ argField w = 0) ∨
        opField w = 3 ∨ (opField w = 4 ∧ argField w = 0) ∨ (opField w = 5 ∧ argField w = 0) ∨
        (opField w = 6 ∧ argField w = 0) ∨ (opField w = 7 ∧ argField w = 0) := by
  simp [decode_eq_command_iff, encode_eq_iff, Instr.exists_iff, Instr.opcode, Instr.operand, and_or_left]

theorem exists_decode_eq_illegal_iff_not (w : Word) :
    (∃ why, decode w = .illegal why) ↔ ¬ ∃ i, decode w = .command i := by
  cases decode w <;> simp

/-- The reserved operation codes are those of no command (R88, R89). -/
theorem eight_le_opcode_iff (o : BitVec 4) :
    8 ≤ o ↔ ¬ (o = 0 ∨ o = 1 ∨ o = 2 ∨ o = 3 ∨ o = 4 ∨ o = 5 ∨ o = 6 ∨ o = 7) := by
  revert o; decide

theorem one_lt_operand_iff (a : Byte) : 1 < a ↔ ¬ (a = 0 ∨ a = 1) := by bv_omega

/-- The illegal words, by their fields (R89). -/
theorem exists_decode_eq_illegal_iff (w : Word) :
    (∃ why, decode w = .illegal why) ↔
      8 ≤ opField w ∨ (opField w = 1 ∧ 1 < argField w) ∨
        ((opField w = 2 ∨ opField w = 4 ∨ opField w = 5 ∨ opField w = 6 ∨ opField w = 7) ∧ argField w ≠ 0) := by
  rw [exists_decode_eq_illegal_iff_not, exists_decode_eq_command_iff, eight_le_opcode_iff, one_lt_operand_iff]
  by_cases h : opField w = 0 ∨ opField w = 1 ∨ opField w = 2 ∨ opField w = 3 ∨ opField w = 4 ∨ opField w = 5 ∨
      opField w = 6 ∨ opField w = 7
  · rcases h with h | h | h | h | h | h | h | h <;> simp [h]
  · simp only [not_or] at h
    simp only [h, false_and, or_self, not_false_eq_true, true_or]

end Sys2Proof
end

section
/-! PROOFS. The decoder on the two fields of a word, and the legal words counted (30_encoding.md R87). -/

namespace Sys2Proof

theorem decode_append_eq_command_iff {o : BitVec 4} {a : Byte} {i : Instr} :
    decode (o ++ a) = .command i ↔ o = i.opcode ∧ a = i.operand := by
  rw [decode_eq_command_iff, encode_eq_iff, opField_append, argField_append]

/-- Every command, in the order of the opcode map. -/
def allCommands : List Instr :=
  (FinEnum.toList LineId).map Instr.init ++ [Instr.writeBit false, Instr.writeBit true] ++ [Instr.readBit] ++
    (FinEnum.toList Byte).map Instr.writeByte ++ [Instr.readByte] ++ [Instr.owReset] ++ [Instr.ppEnable] ++
    [Instr.ppDisable]

theorem mem_allCommands (i : Instr) : i ∈ allCommands := by
  cases i with
  | writeBit b => cases b <;> simp [allCommands]
  | init _ | writeByte _ | readBit | readByte | owReset | ppEnable | ppDisable => simp [allCommands]

theorem nodup_allCommands : allCommands.Nodup := by
  have hinit : ((FinEnum.toList LineId).map Instr.init).Nodup :=
    FinEnum.nodup_toList.map fun _ _ => Instr.init.inj
  have hbyte : ((FinEnum.toList Byte).map Instr.writeByte).Nodup :=
    FinEnum.nodup_toList.map fun _ _ => Instr.writeByte.inj
  simp +contextual [allCommands, List.nodup_append, hinit, hbyte, or_imp]

/-- The sum of R87: 256 + 2 + 1 + 256 + 1 + 1 + 1 + 1. -/
theorem length_allCommands : allCommands.length = 519 := by
  simp [allCommands, FinEnum.toList]

/-- Whether a word decodes to a command. -/
def legalWord (w : Word) : Bool :=
  match decode w with
  | .command _ => true
  | .illegal _ => false

theorem legalWord_iff (w : Word) : legalWord w = true ↔ ∃ i, encode i = w := by
  simp only [← decode_eq_command_iff, legalWord]
  cases decode w <;> simp

theorem encode_injective : Function.Injective encode := fun i j h => by
  have : Decoded.command i = .command j := by rw [← decode_encode i, h, decode_encode]
  exact Decoded.command.inj this

/-- The legal words are the words of the commands, each once. -/
theorem legalWords_perm :
    ((List.range 4096).filter fun n => legalWord (BitVec.ofNat 12 n)).Perm
      (allCommands.map fun i => (encode i).toNat) := by
  refine (List.perm_ext_iff_of_nodup (List.nodup_range.filter _) ?_).mpr fun n => ?_
  · exact nodup_allCommands.map (BitVec.toNat_injective.comp encode_injective)
  · simp only [List.mem_filter, List.mem_range, legalWord_iff, List.mem_map, mem_allCommands, true_and]
    constructor
    · rintro ⟨hn, i, hi⟩
      exact ⟨i, by rw [hi, BitVec.toNat_ofNat, Nat.mod_eq_of_lt hn]⟩
    · rintro ⟨i, rfl⟩
      exact ⟨(encode i).isLt, i, (BitVec.setWidth_eq _).symm.trans (BitVec.ofNat_toNat ..).symm⟩

/-- Settles O4: each clause says which command has the two fields, or that none has; and the legal words are counted
by the commands. -/
theorem decodeByFields : Obligations.DecodeByFields := by
  refine ⟨fun op arg => ?_, legalWords_perm.length_eq.trans ?_⟩
  · simp only [decode_append_eq_command_iff, exists_decode_eq_illegal_iff, opField_append, argField_append]
    simp +contextual [Instr.opcode, Instr.operand]
  · rw [List.length_map, length_allCommands]

end Sys2Proof
end

section
/-! PROOFS. The opcode map: which row selects a word (30_encoding.md R88). -/

namespace Sys2Proof

/-- A row's test, field by field. -/
theorem OpcodeRow.selects_iff (r : OpcodeRow) (w : Word) :
    r.selects w = true ↔ opField w &&& opField r.mask = opField r.pattern ∧
      argField w &&& argField r.mask = argField r.pattern := by
  rw [OpcodeRow.selects, decide_eq_true_iff, word_eq_iff]
  simp only [opField, argField, BitVec.extractLsb'_and]

/-- Every row tests the whole operation code. -/
theorem opField_mask : ∀ r ∈ opcodeRows, opField r.mask = BitVec.allOnes 4 := by decide

theorem opField_of_selects {r : OpcodeRow} (hr : r ∈ opcodeRows) {w : Word} (h : r.selects w = true) :
    opField w = opField r.pattern := by
  obtain ⟨hop, -⟩ := (r.selects_iff w).mp h
  rwa [opField_mask r hr, BitVec.and_allOnes] at hop

/-- No two rows have the same operation code. -/
theorem row_eq_of_opField_eq :
    ∀ r ∈ opcodeRows, ∀ q ∈ opcodeRows, opField r.pattern = opField q.pattern → r = q := by decide

theorem row_eq_of_selects {w : Word} {r q : OpcodeRow} (hr : r ∈ opcodeRows) (hq : q ∈ opcodeRows)
    (hrw : r.selects w = true) (hqw : q.selects w = true) : r = q :=
  row_eq_of_opField_eq r hr q hq ((opField_of_selects hr hrw).symm.trans (opField_of_selects hq hqw))

theorem and_fullMask4 (o : BitVec 4) : o &&& 0xF#4 = o := BitVec.and_allOnes

theorem and_fullMask8 (a : Byte) : a &&& 0xFF#8 = a := BitVec.and_allOnes

/-- The operand mask of `WRITE_BIT` leaves out bit 0. -/
theorem and_bitMask_eq_zero_iff (a : Byte) : a &&& 0xFE#8 = 0#8 ↔ a = 0#8 ∨ a = 1#8 := by
  have parts : a = a.extractLsb' 1 7 ++ a.extractLsb' 0 1 :=
    (BitVec.extractLsb'_append_extractLsb' (w := 7) (len := 1)).symm
  have mask : a &&& 0xFE#8 = a.extractLsb' 1 7 ++ 0#1 := by
    conv_lhs => rw [parts, show 0xFE#8 = BitVec.allOnes 7 ++ 0#1 from rfl]
    rw [BitVec.and_append, BitVec.and_allOnes, BitVec.and_zero]
  rw [mask, show 0#8 = 0#7 ++ 0#1 from rfl, BitVec.append_left_inj]
  exact highBits_eq_zero_iff a

/-- A row selects the words of the commands of its mnemonic. -/
theorem selects_iff_exists_decode {r : OpcodeRow} (hr : r ∈ opcodeRows) (w : Word) :
    r.selects w = true ↔ ∃ i, decode w = .command i ∧ i.mnemonic = r.mnemonic := by
  simp only [OpcodeRow.selects_iff, decode_eq_command_iff, encode_eq_iff, Instr.exists_iff, Instr.opcode,
    Instr.operand, Instr.mnemonic]
  generalize opField w = o
  generalize argField w = a
  simp only [opcodeRows, List.mem_cons, List.not_mem_nil, or_false] at hr
  rcases hr with rfl | rfl | rfl | rfl | rfl | rfl | rfl | rfl
  all_goals
    simp [opField, argField, and_fullMask4, and_fullMask8, and_bitMask_eq_zero_iff, and_or_left]

/-- Settles O5: every row tests the whole operation code, and the rows' operation codes differ; each row's operand test
is the one of its command. -/
theorem oneRowPerWord : Obligations.OneRowPerWord := by
  refine ⟨fun w r q => row_eq_of_selects, fun w r hr => (selects_iff_exists_decode hr w).trans ?_⟩
  refine exists_congr fun i => and_congr_right fun hd => (and_iff_left ?_).symm
  obtain ⟨hop, -⟩ := encode_eq_iff.mp (decode_eq_command_iff.mp hd)
  exact hop

end Sys2Proof
end

section
/-! PROOFS. What the acceptance of an illegal word does (30_encoding.md R89, 60_exceptions.md R171). -/

namespace Sys2Proof.Machine

/-- An edge that accepts a word does what its acceptance does (40_execution_model.md R106). -/
theorem tickEdge_of_accepts (p : Params) {x : Pins} {s : State} (h : accepts x s = true) :
    tickEdge p x s = onNext State.tick (acceptWord (fun i t => .next (accept p i t)) x.cmd s) := by
  simp only [accepts, Bool.and_eq_true, Bool.not_eq_true'] at h
  obtain ⟨⟨hx, hb⟩, hv⟩ := h
  simp [tickEdge, edge, edgeCore, hx, hb, hv]

theorem acceptWord_of_illegal {w : Word} {why : IllegalReason} (h : decode w = .illegal why)
    (ex : Instr → State → Host.Outcome State Fault Refusal) (s : State) :
    acceptWord ex w s = .next (raise .illegalCmd s) := by
  rw [acceptWord, h]

/-- Settles O6: the illegal words are the complement of the legal ones; accepting one raises `ILLEGAL_CMD`, which
writes `ERR` only. -/
theorem illegalWordEnds : Obligations.IllegalWordEnds := by
  refine ⟨exists_decode_eq_illegal_iff, fun p x s why ha hd => ?_⟩
  rw [tickEdge_of_accepts p ha, acceptWord_of_illegal hd]
  rfl

end Sys2Proof.Machine
end

section
/-! PROOFS. When a word is accepted, and that the command port has no effect otherwise (40_execution_model.md R106). -/

namespace Sys2Proof.Machine

theorem accepts_iff {x : Pins} {s : State} :
    accepts x s = true ↔ x.hreset = false ∧ s.busy = false ∧ x.cmdValid = true := by
  simp only [accepts, Bool.and_eq_true, Bool.not_eq_true', and_assoc]

/-- An edge with `hreset = 1` does not look at the command port. -/
theorem tickEdge_hreset (p : Params) {x : Pins} (hx : x.hreset = true) (s : State) :
    tickEdge p x s = if s.busy then .refused .hresetWhileBusy else .next (hardReset p s).tick := by
  simp only [tickEdge, edge, edgeCore, hx, if_true]
  split <;> rfl

/-- An idle edge with `cmd_valid = 0` lets the time pass. -/
theorem tickEdge_idle (p : Params) {x : Pins} {s : State} (hx : x.hreset = false) (hb : s.busy = false)
    (hv : x.cmdValid = false) : tickEdge p x s = .next s.tick := by
  simp [tickEdge, edge, edgeCore, hx, hb, hv]

/-- Under `hreset = 1` or `BUSY = 1` an edge depends on the pins through `hreset` alone. -/
theorem tickEdge_congr_hreset (p : Params) {x y : Pins} {s : State} (hxy : y.hreset = x.hreset)
    (h : x.hreset = true ∨ s.busy = true) : tickEdge p y s = tickEdge p x s := by
  cases hx : x.hreset with
  | true => rw [tickEdge_hreset p hx, tickEdge_hreset p (hxy.trans hx)]
  | false =>
    have hb : s.busy = true := h.resolve_left (by simp [hx])
    rw [tickEdge_busy p hx hb, tickEdge_busy p (hxy.trans hx) hb]

/-- Settles O20: the edge rules for an accepted word, for `hreset`, for a busy and for an idle block. -/
theorem acceptedExactlyWhen : Obligations.AcceptedExactlyWhen := by
  refine fun p x s => ⟨fun hx hb hv => ?_, fun hb v w => ?_, fun hx v w => ?_, tickEdge_idle p⟩
  · exact tickEdge_of_accepts p (accepts_iff.mpr ⟨hx, hb, hv⟩)
  · exact tickEdge_congr_hreset p rfl (.inr hb)
  · exact tickEdge_congr_hreset p rfl (.inl hx)

end Sys2Proof.Machine
end

section
/-! PROOFS. The acceptance of a word, check by check (40_execution_model.md R107). -/

namespace Sys2Proof.Machine

theorem acceptWord_of_command {w : Word} {i : Instr} (h : decode w = .command i)
    (ex : Instr → State → Host.Outcome State Fault Refusal) (s : State) : acceptWord ex w s = ex i s := by
  rw [acceptWord, h]

/-- `INIT` never occupies the sequencer. -/
@[simp] theorem acceptInit_busy (p : Params) (id : LineId) (s : State) : (acceptInit p id s).busy = s.busy := by
  simp only [acceptInit]
  split <;> rfl

/-- A timed command's operation code has a slot kind, and it is the kind it is accepted with (R108). -/
theorem exists_kind_of_timed (p : Params) {i : Instr} (hi : i.timed = true) (s : State) :
    ∃ k, kindOf i.opcode = some k ∧ accept p i s = acceptTimed p k i s := by
  cases i with
  | init _ | ppEnable | ppDisable => cases hi
  | writeBit _ | readBit | writeByte _ | readByte | owReset => exact ⟨_, rfl, rfl⟩

/-- `SH` is loaded with the operand field exactly by the operation codes of the two writes. -/
theorem loadSh_eq (i : Instr) : loadSh i = if i.opcode = 1 ∨ i.opcode = 3 then i.operand else 0x00 := by
  cases i <;> rfl

theorem accept_timed_not_ready (p : Params) {i : Instr} (hi : i.timed = true) {s : State} (hr : s.ready = false) :
    accept p i s = raise .notReady s := by
  obtain ⟨k, -, e⟩ := exists_kind_of_timed p hi s
  rw [e, acceptTimed, hr, if_neg Bool.false_ne_true]

theorem accept_timed_ready (p : Params) {i : Instr} (hi : i.timed = true) {s : State} (hr : s.ready = true) :
    ∃ k, kindOf i.opcode = some k ∧ accept p i s = startTimed p k i s := by
  obtain ⟨k, hk, e⟩ := exists_kind_of_timed p hi s
  exact ⟨k, hk, by rw [e, acceptTimed, if_pos hr]⟩

theorem startTimed_busy (p : Params) (k : SlotKind) (i : Instr) (s : State) : (startTimed p k i s).busy = true :=
  (enter_sameControl p k _).busy

/-- What a started command does, through the fields of its word. -/
theorem startTimed_of_decode (p : Params) (k : SlotKind) {w : Word} {i : Instr} (hd : decode w = .command i)
    (s : State) :
    startTimed p k i s = enter p k { s with
      err := 0, op := opField w, sh := (if opField w = 1 ∨ opField w = 3 then argField w else 0x00),
      bitidx := 0, phase := 0, busy := true } := by
  obtain ⟨hop, harg⟩ := encode_eq_iff.mp (decode_eq_command_iff.mp hd)
  rw [startTimed, loadSh_eq, hop, harg]
  rfl

/-- Settles O23, by what the word decodes to: an illegal word raises its error; a command is accepted by the rule of
its kind. -/
theorem acceptanceRule : Obligations.AcceptanceRule := by
  intro p x s ha
  obtain ⟨-, hb, -⟩ := accepts_iff.mp ha
  rw [tickEdge_of_accepts p ha]
  cases hd : decode x.cmd with
  | illegal why =>
    rw [acceptWord_of_illegal hd]
    exact ⟨raise .illegalCmd s, rfl, fun _ _ => rfl, by simp, by simp, by simp, by simp⟩
  | command i =>
    rw [acceptWord_of_command hd]
    refine ⟨accept p i s, rfl, by simp, ?hook, ?init, ?notReady, ?ready⟩
    case hook => rintro (h | h) <;> cases h <;> rfl
    case init =>
      intro id h
      cases h
      exact ⟨rfl, (acceptInit_busy p id s).trans hb⟩
    case notReady =>
      intro j h hj hr
      cases h
      exact accept_timed_not_ready p hj hr
    case ready =>
      intro j h hj hr
      cases h
      obtain ⟨k, hk, e⟩ := accept_timed_ready p hj hr
      obtain ⟨hop, -⟩ := encode_eq_iff.mp (decode_eq_command_iff.mp hd)
      exact ⟨k, hop ▸ hk, e.trans (startTimed_of_decode p k hd s), e ▸ startTimed_busy p k i s⟩

end Sys2Proof.Machine
end

section
/-! PROOFS. The phase table (40_execution_model.md R109), and the sequencer's edge case by case (R110). -/

namespace Sys2Proof.Machine

/-- Settles O22: every row is read off the table. -/
theorem phaseTableRows : Obligations.PhaseTableRows :=
  ⟨rfl, rfl, rfl, rfl, fun _ => ⟨rfl, rfl, rfl, rfl, rfl, rfl⟩⟩

theorem isByteOp_iff (op : BitVec 4) : isByteOp op = true ↔ op = 3 ∨ op = 4 := by
  simp [isByteOp]

theorem endOfWait_nextPhase (p : Params) {k : SlotKind} {s : State} (h : s.phase < lastPhase k) :
    endOfWait p k s = enter p k { s with phase := s.phase + 1 } := by
  rw [endOfWait, if_pos h]

theorem endOfWait_nextSlot (p : Params) {k : SlotKind} {s : State} (h : ¬ s.phase < lastPhase k)
    (hop : s.op = 3 ∨ s.op = 4) (hi : s.bitidx < 7) : endOfWait p k s = nextSlot p k s := by
  rw [endOfWait, if_neg h, if_pos ⟨(isByteOp_iff _).mpr hop, hi⟩]

theorem endOfWait_complete (p : Params) {k : SlotKind} {s : State} (h : ¬ s.phase < lastPhase k)
    (hlast : ¬ ((s.op = 3 ∨ s.op = 4) ∧ s.bitidx < 7)) : endOfWait p k s = complete s := by
  rw [endOfWait, if_neg h]
  exact if_neg fun ⟨hop, hi⟩ => hlast ⟨(isByteOp_iff _).mp hop, hi⟩

/-- Settles O24: the edge rules of an idle block, of a wait that goes on and of a wait that ends, with the three ways it
can end; the length of a phase is the countdown to 1. -/
theorem sequencerEdgeCases : Obligations.SequencerEdgeCases := by
  refine ⟨fun p x s hx hb => ⟨fun hv => ?_, tickEdge_idle p hx hb⟩, fun p x s k hx hb hk => ?_,
    fun p xs s hx hb hc => ?_⟩
  · exact tickEdge_of_accepts p (accepts_iff.mpr ⟨hx, hb, hv⟩)
  · have ends (hc : s.cnt = 1) : tickEdge p x s = .next (endOfWait p k s).tick :=
      tickEdge_endOfWait p hx hb hc.le hk
    refine ⟨tickEdge_counts p hx hb, fun hc hph => ?_, fun hc hph hop hi => ?_, fun hc hph hlast => ?_⟩
    · rw [ends hc, endOfWait_nextPhase p hph]
    · rw [ends hc, endOfWait_nextSlot p hph hop hi]
      rfl
    · rw [ends hc, endOfWait_complete p hph hlast]
  · exact runPins_countdown p xs s 0 hx hb (by omega)

end Sys2Proof.Machine
end

section
/-! PROOFS. What a completing command writes to `RESULT` (40_execution_model.md R113). -/

namespace Sys2Proof.Machine

theorem zext8_eq (b : Bool) : zext8 b = if b then 1 else 0 := by
  cases b <;> rfl

theorem completionResult_write {s : State} (h : s.op = 1 ∨ s.op = 3) : completionResult s = s.result := by
  rcases h with h | h <;> simp [completionResult, h]

theorem completionResult_readBit {s : State} (h : s.op = 2) : completionResult s = if s.samp then 1 else 0 := by
  simp [completionResult, h, zext8_eq]

theorem completionResult_readByte {s : State} (h : s.op = 4) : completionResult s = s.sh := by
  simp [completionResult, h]

theorem completionResult_owReset {s : State} (h : s.op = 5) : completionResult s = if s.samp then 0 else 1 := by
  rw [show completionResult s = zext8 (!s.samp) by simp [completionResult, h]]
  cases s.samp <;> rfl

/-- Settles O26: the last phase of the last slot ends in `complete`, which leaves the block idle with the result of its
operation. -/
theorem completionWritesResult : Obligations.CompletionWritesResult := by
  intro p x s k hx hb hc hk hph hslot
  have hlast : ¬ ((s.op = 3 ∨ s.op = 4) ∧ s.bitidx < 7) := by
    rintro ⟨hop, hi⟩
    rw [hslot hop] at hi
    exact absurd hi (by decide)
  have hend : ¬ s.phase < lastPhase k := by rw [hph]; exact BitVec.lt_irrefl _
  refine ⟨(complete s).tick, ?_, rfl, completionResult_write, completionResult_readBit, completionResult_readByte,
    completionResult_owReset, fun y hy hv => accepts_iff.mpr ⟨hy, rfl, hv⟩⟩
  rw [tickEdge_endOfWait p hx hb hc.le hk, endOfWait_complete p hend hlast]

end Sys2Proof.Machine
end

section
/-! PROOFS. The error code that each command leaves (60_exceptions.md R170 to R173, R179). -/

namespace Sys2Proof.Machine

/-- Settles O14: a hook is nothing but its error (60_exceptions.md R172). -/
theorem hooksReportUnimplemented : Obligations.HooksReportUnimplemented := fun _ => ⟨rfl, rfl⟩

/-- Settles O15: a timed command that finds `READY = 0` raises `NOT_READY`, which writes `ERR` only. -/
theorem notReadyEndsTimedCommands : Obligations.NotReadyEndsTimedCommands := by
  refine fun i s hi hr => ⟨?_, fun p x ha hd => ?_⟩
  · rw [exec_eq_accept, accept_timed_not_ready _ hi hr]
    rfl
  · rw [tickEdge_of_accepts p ha, acceptWord_of_command hd, accept_timed_not_ready p hi hr]
    rfl

/-- What an `INIT` that the platform rejects does (41_init.md R120). -/
theorem accept_init_rejected {p : Params} {id : LineId} {e : ConfigError} (h : p.platform id = .err e) (s : State) :
    accept p (.init id) s = { raise .configError (lineConfigure p id s).2 with
      ready := false, cfgerr := e, lineId := p.freeLineId s.trace.length } := by
  simp only [accept, acceptInit, lineConfigure_answer, h]

/-- What an `INIT` that the platform accepts does (41_init.md R120). -/
theorem accept_init_ok {p : Params} {id : LineId} (h : p.platform id = .ok) (s : State) :
    accept p (.init id) s = { (lineConfigure p id s).2 with lineId := id, ready := true, err := ErrCode.ok.bits } := by
  simp only [accept, acceptInit, lineConfigure_answer, h]

theorem accept_init_err (p : Params) (id : LineId) (s : State) :
    (accept p (.init id) s).err = if p.platform id = .ok then 0 else 1 := by
  cases h : p.platform id with
  | ok => rw [accept_init_ok h]; rfl
  | err e => rw [accept_init_rejected h]; rfl

/-- A timed command clears `ERR` when it starts; no phase entry writes `ERR`. -/
theorem accept_timed_err (p : Params) {i : Instr} (hi : i.timed = true) (s : State) :
    (accept p i s).err = if s.ready then 0 else 4 := by
  cases hr : s.ready with
  | false => rw [accept_timed_not_ready p hi hr]; rfl
  | true =>
    obtain ⟨k, -, e⟩ := accept_timed_ready p hi hr
    rw [e]
    exact (enter_sameControl p k _).err

/-- Settles O17: a rejected `INIT` records the platform's error; the other commands leave the code of their kind. -/
theorem configErrorPropagated : Obligations.ConfigErrorPropagated := by
  refine ⟨fun p id e s h => ?_, fun p i s hi => ?_⟩
  · rw [accept_init_rejected h]
    exact ⟨rfl, rfl, rfl, by simp [h], rfl⟩
  · cases i with
    | init id => exact absurd rfl (hi id)
    | ppEnable | ppDisable => exact (by decide : ErrCode.unimplemented.bits ≠ 1)
    | writeBit _ | readBit | writeByte _ | readByte | owReset =>
      rw [accept_timed_err p rfl]
      split <;> decide

/-- Settles O21: the code is the one of the word's kind, whatever else holds; an edge with `hreset = 1` takes the
`HRESET` branch before it looks at the word. -/
theorem errorPriority : Obligations.ErrorPriority := by
  refine ⟨fun p x s ha => ?_, fun p x s hx hb => ⟨?_, rfl⟩⟩
  · rw [tickEdge_of_accepts p ha]
    cases hd : decode x.cmd with
    | illegal why =>
      rw [acceptWord_of_illegal hd]
      exact ⟨_, rfl, rfl⟩
    | command i =>
      rw [acceptWord_of_command hd]
      refine ⟨(accept p i s).tick, rfl, ?_⟩
      cases i with
      | init id => exact accept_init_err p id s
      | ppEnable | ppDisable => rfl
      | writeBit _ | readBit | writeByte _ | readByte | owReset => exact accept_timed_err p rfl s
  · rw [tickEdge_hreset p hx, hb, if_neg Bool.false_ne_true]

end Sys2Proof.Machine
end

section
/-! PROOFS. What `HRESET` does while the block is idle and while it is busy (70_reset_and_hazards.md R200 to R203). -/

namespace Sys2Proof.Machine

/-- While the block is idle, `HRESET` takes effect, and one edge passes. -/
theorem tickEdge_hreset_idle (p : Params) {x : Pins} {s : State} (hx : x.hreset = true) (hb : s.busy = false) :
    tickEdge p x s = .next (hardReset p s).tick := by
  rw [tickEdge_hreset p hx, hb, if_neg Bool.false_ne_true]

/-- While a command is in flight, there is no next state. -/
theorem tickEdge_hreset_busy (p : Params) {x : Pins} {s : State} (hx : x.hreset = true) (hb : s.busy = true) :
    tickEdge p x s = .refused .hresetWhileBusy := by
  rw [tickEdge_hreset p hx, hb, if_pos rfl]

@[simp] theorem hardReset_pads (p : Params) (s : State) : (hardReset p s).pads = s.pads := rfl

@[simp] theorem statusByte_reset : statusByte State.reset = 0 := by decide

/-- `STATUS` is a function of `BUSY`, `READY` and `ERR` (10_state.md R28). -/
theorem statusByte_congr {s t : State} (hb : s.busy = t.busy) (hr : s.ready = t.ready) (he : s.err = t.err) :
    statusByte s = statusByte t := by
  simp only [statusByte, hb, hr, he]

@[simp] theorem statusByte_tick (s : State) : statusByte s.tick = statusByte s := rfl

@[simp] theorem statusByte_hardReset (p : Params) (s : State) : statusByte (hardReset p s) = 0 :=
  (statusByte_congr rfl rfl rfl).trans statusByte_reset

/-- What the block drives is a function of the pads (20_memory.md R58). -/
theorem drives_congr {s t : State} (h : s.pads = t.pads) (id : LineId) : drives s id = drives t id := by
  simp only [drives, State.pad_congr h]

/-- Settles O39: an idle edge with `hreset = 1` leads to `hardReset`, the reset state with the pads, the trace, the
time and the host kept; `STATUS` and what the block drives follow from the fields they are functions of. -/
theorem hresetWhileIdle : Obligations.HresetWhileIdle := by
  refine ⟨fun p x s hx hb => ⟨(hardReset p s).tick, tickEdge_hreset_idle p hx hb, ?_⟩, statusByte_reset, ?_⟩
  · have hstatus : statusByte (hardReset p s).tick = 0 := by simp
    have hdrives : ∀ id, drives (hardReset p s).tick id = drives s id := drives_congr (by simp)
    exact ⟨rfl, rfl, rfl, rfl, rfl, hstatus, rfl, rfl, rfl, rfl, rfl, rfl, rfl, rfl, rfl, hdrives⟩
  · exact ⟨rfl, rfl, rfl, rfl, rfl, rfl, rfl, rfl, rfl, rfl, rfl⟩

/-- Settles O40: `HRESET` comes before every other case of an edge, and its busy branch is the refusal. -/
theorem hresetWhileBusyRefused : Obligations.HresetWhileBusyRefused :=
  fun p _ _ hx hb => tickEdge_hreset_busy p hx hb

end Sys2Proof.Machine
end

section
/-! PROOFS. Words and commands are in one-to-one correspondence (30_encoding.md R84, R87), and the spec's examples of
words and of assembler lines (95_test_vectors.md, 30_encoding.md R92). -/

namespace Sys2Proof

/-- Settles O2, by the decoder's law on the words of the commands. -/
theorem decodeOfEncode : Obligations.DecodeOfEncode := decode_encode

/-- Settles O3: a word is determined by its two fields, and they are those of the command it decodes to. -/
theorem encodeOfDecode : Obligations.EncodeOfDecode := fun _ _ => encode_of_decode

/-- Settles O1: twenty-one closed evaluations of the decoder. -/
theorem specWordsDecode : Obligations.SpecWordsDecode := by
  unfold Obligations.SpecWordsDecode
  decide

/-- Settles O7: six closed evaluations of the assembler. -/
theorem assemblerExamples : Obligations.AssemblerExamples := by
  unfold Obligations.AssemblerExamples
  decide

end Sys2Proof
end

section
/-! PROOFS. The acceptance edge of each command: where a timed command starts, and what acceptance leaves alone
(40_execution_model.md R107, R109, R111; 41_init.md R120). -/

namespace Sys2Proof.Machine

/-- The timed commands are those whose operation code has a slot kind (R108). -/
theorem timed_iff_exists_kind (i : Instr) : i.timed = true ↔ ∃ k, kindOf i.opcode = some k := by
  cases i <;> simp [Instr.timed, Instr.opcode, kindOf]

/-- A started command is in phase 0: Output, Low, and the low time of its kind. -/
theorem startTimed_eq (p : Params) (k : SlotKind) (i : Instr) (s : State) :
    startTimed p k i s = beginWait p (lowUs k (lowBit (loadSh i))) (lineLevel s.lineId .low (lineDir s.lineId .output
      { s with err := ErrCode.ok.bits, op := i.opcode, sh := loadSh i, bitidx := 0, phase := 0, busy := true })) :=
  enter_phase0 p k _ rfl

theorem accept_timed_ready_of_kind (p : Params) {i : Instr} {k : SlotKind} (hk : kindOf i.opcode = some k) {s : State}
    (hr : s.ready = true) : accept p i s = startTimed p k i s := by
  obtain ⟨k', hk', e⟩ := accept_timed_ready p ((timed_iff_exists_kind i).mpr ⟨k, hk⟩) hr
  rw [e, Option.some.inj (hk'.symm.trans hk)]

/-- The acceptance edge of a timed command with `READY = 1`, whole, for the machine's own parameters. -/
theorem exec_timed_starts {i : Instr} {k : SlotKind} (hk : kindOf i.opcode = some k) {s : State}
    (hr : s.ready = true) : ∃ t, exec i s = .next t ∧
    { t with pads := s.pads } = { s with
      err := 0, op := i.opcode, sh := loadSh i, bitidx := 0, phase := 0, busy := true,
      cnt := lowUs k (lowBit (loadSh i)) * Config.params.ticksPerUs,
      trace := s.trace ++ [⟨s.now, .dir s.lineId .output⟩, ⟨s.now, .level s.lineId .low⟩,
        ⟨s.now, .wait (lowUs k (lowBit (loadSh i)))⟩] } ∧
    t.pad s.lineId = { s.pad s.lineId with dir := .output, out := .low } ∧
    ∀ a, a ≠ s.lineId → t.pad a = s.pad a := by
  refine ⟨startTimed Config.params k i s, ?_, ?_, ?_, fun a ha => ?_⟩
  · rw [exec_eq_accept, accept_timed_ready_of_kind _ hk hr]
  · have hcnt : ∀ j n, waitTicks Config.params j n = n * Config.params.ticksPerUs := waitTicks_exact rfl
    simp [startTimed_eq, beginWait, lineLevel, lineDir, State.emit, State.setPad, hcnt, ErrCode.bits]
  · simp [startTimed_eq, State.pad]
  · simp [startTimed_eq, State.pad, Memory.read_write_other ha]

/-- Settles O9: the start of a timed command, the low time chosen by the bit. -/
theorem writeBitStarts : Obligations.WriteBitStarts := by
  intro b s hr
  cases b <;> exact exec_timed_starts (i := .writeBit _) rfl hr

/-- Settles O10, by the start of a timed command. -/
theorem readBitStarts : Obligations.ReadBitStarts := fun _ hr => exec_timed_starts (i := .readBit) rfl hr

/-- Settles O11: the start of a timed command, the low time chosen by bit 0 of the operand. -/
theorem writeByteStarts : Obligations.WriteByteStarts := fun v _ hr => exec_timed_starts (i := .writeByte v) rfl hr

/-- Settles O12, by the start of a timed command. -/
theorem readByteStarts : Obligations.ReadByteStarts := fun _ hr => exec_timed_starts (i := .readByte) rfl hr

/-- Settles O13, by the start of a timed command. -/
theorem owResetStarts : Obligations.OwResetStarts := fun _ hr => exec_timed_starts (i := .owReset) rfl hr

/-- Settles O8, by the platform's answer. -/
theorem initCompletes : Obligations.InitCompletes := by
  intro id s
  rw [exec_eq_accept]
  cases h : Config.params.platform id with
  | ok => simp [accept_init_ok h, lineConfigure, h, State.emit, State.setPad, Pad.configured, ErrCode.bits]
  | err e => simp [accept_init_rejected h, lineConfigure, h, State.emit, State.setPad, raise, ErrCode.bits]

/-- The fields that the acceptance of no command writes, and those that only the acceptance of `INIT`, or only the
acceptance of a timed command, writes. -/
structure AcceptFrame (i : Instr) (s t : State) : Prop where
  result   : t.result = s.result
  samp     : t.samp = s.samp
  now      : t.now = s.now
  host     : t.host = s.host
  config   : (∀ id, i ≠ .init id) → t.cfgerr = s.cfgerr ∧ t.lineId = s.lineId ∧ t.ready = s.ready
  idle     : i.timed = false → t.busy = s.busy ∧ t.op = s.op ∧ t.phase = s.phase ∧ t.cnt = s.cnt ∧
               t.bitidx = s.bitidx ∧ t.sh = s.sh
  pads     : ∀ a, padTarget i s ≠ some a → t.pad a = s.pad a
  trace    : ∃ new, t.trace = s.trace ++ new ∧ (∀ e ∈ new, e.time = s.now) ∧
               ∀ e ∈ new, ∀ id l, e.event ≠ .sample id l

/-- An error raised at acceptance writes `ERR` only. -/
theorem raise_acceptFrame (i : Instr) (c : ErrCode) (s : State) : AcceptFrame i s (raise c s) :=
  ⟨rfl, rfl, rfl, rfl, fun _ => ⟨rfl, rfl, rfl⟩, fun _ => ⟨rfl, rfl, rfl, rfl, rfl, rfl⟩, fun _ _ => rfl,
    ⟨[], by simp, by simp, by simp⟩⟩

theorem acceptInit_acceptFrame (p : Params) (id : LineId) (s : State) :
    AcceptFrame (.init id) s (accept p (.init id) s) := by
  have other : ∀ a, padTarget (.init id) s ≠ some a → (lineConfigure p id s).2.pad a = s.pad a :=
    fun a ha => pad_lineConfigure_other (fun h => ha (congrArg some h.symm)) p s
  cases h : p.platform id with
  | ok =>
    rw [accept_init_ok h]
    exact ⟨rfl, rfl, rfl, rfl, fun hi => absurd rfl (hi id), fun _ => ⟨rfl, rfl, rfl, rfl, rfl, rfl⟩, other,
      ⟨_, rfl, by simp, by simp⟩⟩
  | err e =>
    rw [accept_init_rejected h]
    exact ⟨rfl, rfl, rfl, rfl, fun hi => absurd rfl (hi id), fun _ => ⟨rfl, rfl, rfl, rfl, rfl, rfl⟩, other,
      ⟨_, rfl, by simp, by simp⟩⟩

theorem startTimed_acceptFrame (p : Params) (k : SlotKind) {i : Instr} (hi : i.timed = true) {s : State}
    (hr : s.ready = true) : AcceptFrame i s (startTimed p k i s) := by
  have target : padTarget i s = some s.lineId := by
    cases i with
    | writeBit _ | readBit | writeByte _ | readByte | owReset => exact if_pos hr
    | init _ | ppEnable | ppDisable => cases hi
  have other : ∀ a, a ≠ s.lineId → (startTimed p k i s).pad a = s.pad a :=
    fun a ha => (enter_sameControl p k _).pads a ha
  constructor
  case idle => exact fun h => by cases hi.symm.trans h
  case pads => exact fun a ha => other a fun h => ha (target.trans (congrArg some h.symm))
  all_goals simp [startTimed_eq]

/-- What the acceptance of a command leaves alone, for any parameters. -/
theorem accept_acceptFrame (p : Params) (i : Instr) (s : State) : AcceptFrame i s (accept p i s) := by
  cases hi : i.timed with
  | true =>
    cases hr : s.ready with
    | true =>
      obtain ⟨k, -, e⟩ := accept_timed_ready p hi hr
      rw [e]
      exact startTimed_acceptFrame p k hi hr
    | false =>
      rw [accept_timed_not_ready p hi hr]
      exact raise_acceptFrame i _ s
  | false =>
    cases i with
    | init id => exact acceptInit_acceptFrame p id s
    | ppEnable | ppDisable => exact raise_acceptFrame _ _ s
    | writeBit _ | readBit | writeByte _ | readByte | owReset => cases hi

/-- Settles O16: the frame of acceptance, read at the machine's own parameters. -/
theorem acceptanceFrame : Obligations.AcceptanceFrame := by
  intro i s t h
  rw [exec_eq_accept] at h
  cases h
  have f := accept_acceptFrame Config.params i s
  obtain ⟨new, htrace, -, -⟩ := f.trace
  exact ⟨f.result, f.samp, f.now, f.host, f.config, f.idle, f.pads, new, htrace⟩

end Sys2Proof.Machine
end

section
/-! PROOFS. How the host's moves reach the block (40_execution_model.md R106, R118). -/

namespace Sys2Proof.Machine

/-- A step at which the host presents a word to an idle block is the acceptance of that word. -/
theorem step_of_accepts {s : State} (h : accepts (pinsNow s) s = true) :
    step s = onNext State.tick (acceptWord exec (pinsNow s).cmd s.hostMoved) := by
  have hexec : exec = fun i t => .next (accept Config.params i t) := by
    funext i t
    exact exec_eq_accept i t
  rw [step_eq_stepWith, tickEdge_of_accepts Config.params (s := s.hostMoved) h, hexec]

theorem step_of_command {s : State} {i : Instr} (h : accepts (pinsNow s) s = true)
    (hd : decode (pinsNow s).cmd = .command i) : step s = onNext State.tick (exec i s.hostMoved) := by
  rw [step_of_accepts h, acceptWord_of_command hd]

theorem decode_of_decodeTableWord {nbits w : Nat} {i : Instr} (h : decodeTableWord nbits w = some i) :
    decode (BitVec.ofNat 12 (tableValue nbits w)) = .command i := by
  unfold decodeTableWord at h
  split at h
  · split at h
    · next j hj =>
      cases h
      exact hj
    · cases h
  · cases h

/-- Settles O18: the pins of the edge carry a word that is accepted; for `withFetchWord` they carry the table's. -/
theorem stepRunsDecodedInstruction : Obligations.StepRunsDecodedInstruction := by
  refine ⟨fun s i => step_of_command, fun s nbits w i h => ?_⟩
  exact step_of_command (s := s.withFetchWord nbits w) rfl (decode_of_decodeTableWord h)

theorem pinsNow_of_command {s : State} {gap : Nat} {w : Word} {r : List HostMove} (h : s.host = .command gap w :: r) :
    pinsNow s = if s.busy || gap != 0 then Pins.idle else Pins.present w := by
  rw [pinsNow, h]

/-- Settles O19, by the three cases of a run's command: presented, held back by its idle edges, held back by
`BUSY = 1`. -/
theorem runPresentsCommand : Obligations.RunPresentsCommand := by
  refine fun s gap w r h => ⟨fun hb hg => ?_, fun hb g hg => ?_, fun hb => ?_⟩
  · have hpins : pinsNow s = Pins.present w := by simp [pinsNow_of_command h, hb, hg]
    have hmoved : s.hostMoved = { s with host := r } := by simp [State.hostMoved, hostAfter, h, hb, hg]
    have ha : accepts (pinsNow s) s = true := by simp [hpins, accepts, Pins.present, hb]
    rw [step_of_accepts ha, hpins, hmoved]
    rfl
  · have hpins : pinsNow s = Pins.idle := by simp [pinsNow_of_command h, hg]
    have hmoved : s.hostMoved = { s with host := .command g w :: r } := by simp [State.hostMoved, hostAfter, h, hb, hg]
    rw [step_eq_stepWith, hpins, hmoved]
    exact tickEdge_idle _ rfl hb rfl
  · have hpins : pinsNow s = Pins.idle := by simp [pinsNow_of_command h, hb]
    have hhost : hostAfter s = s.host := by simp [hostAfter, h, hb]
    have hmoved : s.hostMoved = s := by rw [State.hostMoved, hhost]
    rw [step_eq_stepWith, hpins, hmoved]
    exact tickEdge_busy _ rfl hb

end Sys2Proof.Machine
end

section
/-! PROOFS. What an edge writes and what it leaves alone: waits (40_execution_model.md R104), the frame of the sequencer
(R114), the writers of `RESULT` and `LINE_ID` (10_state.md R21, R27), and the trace (R101). -/

namespace Sys2Proof.Machine

/-- Settles O25: a wait records its event and loads `CNT`; the edges that follow count it down. -/
theorem waitCountsItsEdges : Obligations.WaitCountsItsEdges := by
  refine ⟨fun p n s => ⟨rfl, le_waitTicks p _ n, fun h => waitTicks_exact h _ n⟩, fun p xs s hx hb hl => ?_⟩
  have hcnt : s.cnt - xs.length = s.cnt - xs.length - 1 + 1 := by omega
  rw [hcnt]
  exact runPins_countdown p xs s _ hx hb (by omega)

/-- What an edge with `BUSY = 1` can do: count, complete, or enter a phase with `PHASE`, `BITIDX` and `SH` set anew. -/
theorem tickEdge_busy_cases {p : Params} {x : Pins} {s t : State} (hx : x.hreset = false) (hb : s.busy = true)
    (h : tickEdge p x s = .next t) :
    t = { s with cnt := s.cnt - 1, now := s.now + 1 } ∨
    (∃ k ph bi sh, t = (enter p k { s with phase := ph, bitidx := bi, sh := sh }).tick) ∨ t = (complete s).tick := by
  rw [tickEdge_busy p hx hb] at h
  obtain ⟨-, e⟩ | ⟨-, k, -, e⟩ | ⟨-, -, e⟩ := sequencerEdge_cases p s <;> rw [e] at h <;> cases h
  · exact .inl rfl
  · obtain ⟨-, e⟩ | ⟨-, -, -, e⟩ | ⟨-, -, e⟩ := endOfWait_cases p k s <;> rw [e]
    · exact .inr (.inl ⟨k, _, s.bitidx, s.sh, rfl⟩)
    · exact .inr (.inl ⟨k, _, _, _, rfl⟩)
    · exact .inr (.inr rfl)

/-- Settles O27, by the three things an edge with `BUSY = 1` can do; entering a phase keeps `BUSY = 1`. -/
theorem sequencerFrame : Obligations.SequencerFrame := by
  intro p x s t hx hb h
  obtain rfl | ⟨k, ph, bi, sh, rfl⟩ | rfl := tickEdge_busy_cases hx hb h
  · exact ⟨rfl, rfl, rfl, rfl, rfl, rfl, fun _ => rfl, fun _ => ⟨rfl, rfl⟩, fun _ _ => rfl⟩
  · have c := enter_sameControl p k { s with phase := ph, bitidx := bi, sh := sh }
    refine ⟨c.lineId, c.ready, c.err, c.cfgerr, c.op, c.host, fun _ => c.result, fun hidle => ?_, c.pads⟩
    cases (c.busy.trans hb).symm.trans hidle
  · exact ⟨rfl, rfl, rfl, rfl, rfl, rfl, fun hbusy => Bool.noConfusion hbusy, fun _ => ⟨rfl, rfl⟩, fun _ _ => rfl⟩

/-- A completing command changes `RESULT` only if it is a read or a reset. -/
theorem op_of_completionResult_ne {s : State} (h : completionResult s ≠ s.result) :
    s.op = 2 ∨ s.op = 4 ∨ s.op = 5 := by
  by_contra hop
  simp only [not_or] at hop
  obtain ⟨h2, h4, h5⟩ := hop
  exact h ((if_neg h2).trans ((if_neg h4).trans (if_neg h5)))

/-- Settles O29, by the cases of an edge: with `hreset = 0`, completion alone writes `RESULT`, and the acceptance of an
`INIT` alone writes `LINE_ID`. -/
theorem resultAndLineIdWrittenOnlyBy : Obligations.ResultAndLineIdWrittenOnlyBy := by
  intro p x s t h
  obtain ⟨-, -, e⟩ | ⟨hx, -, e⟩ | ⟨hx, hb, -⟩ | ⟨-, -, -, -, e⟩ | ⟨hx, hb, hv, i, hd, e⟩ | ⟨-, -, -, e⟩ :=
    tickEdge_cases p x s
  · cases e.symm.trans h
  · exact ⟨fun _ => .inl hx, fun _ => .inl hx⟩
  · obtain rfl | ⟨k, ph, bi, sh, rfl⟩ | rfl := tickEdge_busy_cases hx hb h
    · exact ⟨fun hne => absurd rfl hne, fun hne => absurd rfl hne⟩
    · have c := enter_sameControl p k { s with phase := ph, bitidx := bi, sh := sh }
      exact ⟨fun hne => absurd c.result hne, fun hne => absurd c.lineId hne⟩
    · exact ⟨fun hne => .inr ⟨hb, rfl, op_of_completionResult_ne hne⟩, fun hne => absurd rfl hne⟩
  · cases e.symm.trans h
    exact ⟨fun hne => absurd rfl hne, fun hne => absurd rfl hne⟩
  · cases e.symm.trans h
    have f := accept_acceptFrame p i s
    refine ⟨fun hne => absurd f.result hne, fun hne => .inr ⟨accepts_iff.mpr ⟨hx, hb, hv⟩, ?_⟩⟩
    by_contra hinit
    obtain ⟨-, hline, -⟩ := f.config fun id hi => hinit ⟨id, hi ▸ hd⟩
    exact hne hline
  · cases e.symm.trans h
    exact ⟨fun hne => absurd rfl hne, fun hne => absurd rfl hne⟩

/-- Settles O30, by the cases of an edge: only an acceptance and a phase entry record events, at the edge's time. -/
theorem traceOnlyGrows : Obligations.TraceOnlyGrows := by
  intro p x s t h
  obtain ⟨-, -, e⟩ | ⟨-, -, e⟩ | ⟨hx, hb, -⟩ | ⟨-, -, -, -, e⟩ | ⟨-, -, -, i, -, e⟩ | ⟨-, -, -, e⟩ :=
    tickEdge_cases p x s
  · cases e.symm.trans h
  · cases e.symm.trans h
    exact ⟨rfl, [], (List.append_nil _).symm, by simp⟩
  · obtain rfl | ⟨k, ph, bi, sh, rfl⟩ | rfl := tickEdge_busy_cases hx hb h
    · exact ⟨rfl, [], (List.append_nil _).symm, by simp⟩
    · exact ⟨congrArg (· + 1) (enter_sameControl p k _).now, enter_trace p k _⟩
    · exact ⟨rfl, [], (List.append_nil _).symm, by simp⟩
  · cases e.symm.trans h
    exact ⟨rfl, [], (List.append_nil _).symm, by simp⟩
  · cases e.symm.trans h
    obtain ⟨new, htrace, htime, -⟩ := (accept_acceptFrame p i s).trace
    exact ⟨congrArg (· + 1) (accept_acceptFrame p i s).now, new, htrace, htime⟩
  · cases e.symm.trans h
    exact ⟨rfl, [], (List.append_nil _).symm, by simp⟩

end Sys2Proof.Machine
end

section
/-! PROOFS. The line: its output latch, its samples, its level (20_memory.md R56 to R60), and what the block does with
it while a command is in flight. -/

namespace Sys2Proof.Machine

/-- Settles O32, from the rules for the pads after `LineLevel`; outside the pads it only appends its event. -/
theorem lineLevelEffect : Obligations.LineLevelEffect := by
  refine fun id l s => ⟨pad_lineLevel_same s id l, fun a ha => pad_lineLevel_other ha s l, rfl, fun hmode hdir => ?_⟩
  rw [drives_iff, pad_lineLevel_same]
  exact ⟨fun ⟨_, _, hl⟩ => hl, fun hl => ⟨hmode, hdir, hl⟩⟩

/-- Settles O33: `LineSample` is defined by the oracle's answer to the query. -/
theorem lineSampleEffect : Obligations.LineSampleEffect := fun _ _ _ => rfl

/-- Settles O34: `SAMPLE` is `LineSample` and then `storeSample`, which writes `SAMP` and `SH` only. -/
theorem sampleActionEffect : Obligations.SampleActionEffect :=
  fun _ _ => ⟨rfl, fun hop => if_pos hop, fun hop => if_neg hop, rfl⟩

theorem lineLevelAt_of_drives {env : Environment} {s : State} {id : LineId} (h : drives s id = true) :
    lineLevelAt env s id = .low := if_pos h

/-- The environment alone decides the level of a line that the block does not drive (R60). -/
theorem lineLevelAt_of_not_drives {env : Environment} {s : State} {id : LineId} (h : drives s id = false) :
    lineLevelAt env s id = env.oracle (s.query id) := if_neg (Bool.eq_false_iff.mp h)

theorem Environment.oracle_of_pullsLow {env : Environment} {q : SampleQuery} (h : env.pullsLow q = true) :
    env.oracle q = .low := if_pos h

theorem Environment.oracle_of_pullUp {env : Environment} {q : SampleQuery} (hl : env.pullsLow q = false)
    (hu : env.pullUp q = true) : env.oracle q = .high := by
  simp [Environment.oracle, hl, hu]

theorem Environment.oracle_of_floating {env : Environment} {q : SampleQuery} (hl : env.pullsLow q = false)
    (hu : env.pullUp q = false) : env.oracle q = env.floating q := by
  simp [Environment.oracle, hl, hu]

/-- Settles O36: a driven line is Low, and the level of every other line is the environment's. -/
theorem lineLevelRule : Obligations.LineLevelRule := by
  refine fun env s id => ⟨lineLevelAt_of_drives, fun hl => ?_, fun hd hl hu => ?_, fun hd hl hu => ?_,
    fun p ho hd => ?_⟩
  · cases hd : drives s id with
    | true => exact lineLevelAt_of_drives hd
    | false => rw [lineLevelAt_of_not_drives hd, Environment.oracle_of_pullsLow hl]
  · rw [lineLevelAt_of_not_drives hd, Environment.oracle_of_pullUp hl hu]
  · rw [lineLevelAt_of_not_drives hd, Environment.oracle_of_floating hl hu]
  · rw [lineLevelAt_of_not_drives hd, ← ho]
    rfl

/-- The latch is low in phase 0 only (40_execution_model.md R109). -/
theorem padInPhase_snd_of_ne_zero (k : SlotKind) {ph : BitVec 2} (h : ph ≠ 0) : (padInPhase k ph).2 = .high := by
  revert ph
  cases k <;> decide

/-- Settles O38: under the invariant the pad is configured, and its direction and latch are those of its phase. -/
theorem drivesExactlyInPhaseZero : Obligations.DrivesExactlyInPhaseZero := by
  intro p s hinv hb
  obtain ⟨k, hk, -⟩ := hinv.busyKind hb
  obtain ⟨hmode, -⟩ := hinv.readyPad (hinv.busyReady hb)
  have hpad := hinv.busyPad hb k hk
  rw [drives_iff, and_iff_right hmode]
  by_cases hph : s.phase = 0
  · rw [hph] at hpad
    exact iff_of_true (Prod.mk.inj hpad) hph
  · have hhigh : (s.pad s.lineId).out = .high :=
      (congrArg Prod.snd hpad).trans (padInPhase_snd_of_ne_zero k hph)
    exact iff_of_false (fun ⟨_, hlow⟩ => by cases hhigh.symm.trans hlow) hph

/-- The phases of a kind: every kind has 0 and 1, a kind that samples has 2 as well. -/
theorem phase_cases {k : SlotKind} {ph : BitVec 2} (h : ph ≤ lastPhase k) :
    ph = 0 ∨ ph = 1 ∨ (ph = 2 ∧ k ≠ .writeSlot) := by
  revert ph
  cases k <;> decide

/-- Only phase 2 of a kind that samples records a sample, one on the bus line (40_execution_model.md R109). -/
theorem enter_sample_mem {p : Params} {k : SlotKind} {s : State} (hph : s.phase ≤ lastPhase k) {time : Nat}
    {id : LineId} {l : Level} (h : ⟨time, .sample id l⟩ ∈ (enter p k s).trace.drop s.trace.length) :
    s.phase = 2 ∧ k ≠ .writeSlot ∧ id = s.lineId := by
  obtain h0 | h1 | ⟨h2, hk⟩ := phase_cases hph
  · rw [enter_phase0 p k s h0] at h
    simp at h
  · cases k with
    | writeSlot => rw [enter_write_phase1 p s h1] at h; simp at h
    | readSlot | resetSeq => rw [enter_sense_phase1 p _ (by decide) s h1] at h; simp at h
  · rw [enter_sense_phase2 p k hk s h2] at h
    obtain ⟨-, hid, -⟩ : time = s.now ∧ id = s.lineId ∧ l = (lineSample p s.lineId s).1 := by simpa using h
    exact ⟨h2, hk, hid⟩

/-- Where a sample comes from: the end of the settle phase of a command in flight. -/
theorem tickEdge_sample_mem {p : Params} {x : Pins} {s t : State} (h : tickEdge p x s = .next t) {time : Nat}
    {id : LineId} {l : Level} (hmem : ⟨time, .sample id l⟩ ∈ t.trace.drop s.trace.length) :
    s.busy = true ∧ id = s.lineId ∧ s.phase = 1 ∧ ∃ k, kindOf s.op = some k ∧ k ≠ .writeSlot := by
  obtain ⟨-, -, e⟩ | ⟨-, -, e⟩ | ⟨-, hb, e⟩ | ⟨-, -, -, -, e⟩ | ⟨-, -, -, i, -, e⟩ | ⟨-, -, -, e⟩ :=
    tickEdge_cases p x s <;> rw [e] at h
  · cases h
  · cases h; simp [hardReset] at hmem
  · obtain ⟨u, hu, rfl⟩ := onNext_eq_next.mp h
    obtain ⟨-, e⟩ | ⟨-, k, hk, e⟩ | ⟨-, -, e⟩ := sequencerEdge_cases p s <;> rw [e] at hu <;> cases hu
    · simp at hmem
    · rw [State.tick_trace] at hmem
      obtain ⟨hph, e⟩ | ⟨-, -, -, e⟩ | ⟨-, -, e⟩ := endOfWait_cases p k s <;> rw [e] at hmem
      · have hnext : s.phase + 1 ≤ lastPhase k ∧ (s.phase + 1 = 2 → s.phase = 1) := by
          revert hph
          generalize s.phase = ph
          revert ph
          cases k <;> decide
        obtain ⟨hle, hone⟩ := hnext
        obtain ⟨h2, hkw, hid⟩ := enter_sample_mem (s := { s with phase := s.phase + 1 }) hle hmem
        exact ⟨hb, hid, hone h2, k, hk, hkw⟩
      · obtain ⟨h2, -, -⟩ := enter_sample_mem
          (s := { s with sh := _, bitidx := s.bitidx + 1, phase := 0 }) (Nat.zero_le _) hmem
        exact absurd h2 (by decide : (0 : BitVec 2) ≠ 2)
      · simp at hmem
  · cases h; simp at hmem
  · cases h
    obtain ⟨new, htrace, -, hnone⟩ := (accept_acceptFrame p i s).trace
    rw [State.tick_trace, htrace, List.drop_left] at hmem
    exact absurd rfl (hnone _ hmem id l)
  · cases h; simp at hmem

/-- Settles O37: a sample ends the settle phase of a slot whose pad, by the invariant, is an input. -/
theorem samplesOnlyUndriven : Obligations.SamplesOnlyUndriven := by
  intro p x s t hinv h time id l hmem
  obtain ⟨hb, rfl, hph, k, hk, hkw⟩ := tickEdge_sample_mem h hmem
  have hpad := hinv.busyPad hb k hk
  have hdir : (s.pad s.lineId).dir = .input := by
    rw [hph] at hpad
    cases k with
    | writeSlot => exact absurd rfl hkw
    | readSlot | resetSeq => exact congrArg Prod.fst hpad
  exact ⟨rfl, hdir, drives_eq_false_of_input hdir, hb⟩

end Sys2Proof.Machine
end

section
/-! PROOFS. The invariant (10_state.md R43, R33): it holds at reset, every edge keeps it, and an edge at which the host
keeps its duty always leads on. -/

namespace Sys2Proof

open Machine

/-- Settles O42: the reset state is idle and not ready, so the clauses about a command in flight ask nothing. -/
theorem invAtReset : Obligations.InvAtReset := fun _ => {
  phaseLe := by decide
  bitidxZero := fun _ => rfl
  errLe := by decide
  busyReady := fun hb => Bool.noConfusion hb
  busyErr := fun hb => Bool.noConfusion hb
  busyKind := fun hb => Bool.noConfusion hb
  busyCnt := fun hb => Bool.noConfusion hb
  cntLe := fun _ => Nat.zero_le _
  padsWf := Memory.wf_reset
  readyPad := fun hr => Bool.noConfusion hr
  busyPad := fun hb => Bool.noConfusion hb }

/-- The bus line's pad has the attributes that `LineConfigure` asks for (20_memory.md R53). -/
def BusConfigured (s : State) : Prop :=
  (s.pad s.lineId).mode = .bidirOpenDrain ∧ (s.pad s.lineId).pullUp = true ∧
    (s.pad s.lineId).pullDown = false ∧ (s.pad s.lineId).intEn = false

/-- An idle state inherits the invariant from a state with the same sequencer registers. -/
theorem Inv.of_idle {p : Params} {s t : State} (h : Inv p s) (hb : t.busy = false) (hop : t.op = s.op)
    (hph : t.phase = s.phase) (hbit : t.bitidx = s.bitidx) (hcnt : t.cnt = s.cnt) (herr : t.err ≤ 4)
    (hwf : Memory.wf t.pads = true) (hready : t.ready = true → BusConfigured t) : Inv p t where
  phaseLe := hph ▸ h.phaseLe
  bitidxZero := fun hbyte => hbit.trans (h.bitidxZero (hop ▸ hbyte))
  errLe := herr
  busyReady := fun hbusy => by cases hb.symm.trans hbusy
  busyErr := fun hbusy => by cases hb.symm.trans hbusy
  busyKind := fun hbusy => by cases hb.symm.trans hbusy
  busyCnt := fun hbusy => by cases hb.symm.trans hbusy
  cntLe := fun hexact => hcnt ▸ h.cntLe hexact
  padsWf := hwf
  readyPad := hready
  busyPad := fun hbusy => by cases hb.symm.trans hbusy

theorem Inv.after_tick {p : Params} {s : State} (h : Inv p s) : Inv p s.tick := { h with }

theorem Inv.after_hostMoved {p : Params} {s : State} (h : Inv p s) : Inv p s.hostMoved := { h with }

theorem errCode_bits_le (c : ErrCode) : c.bits ≤ 4 := by
  cases c <;> decide

theorem Inv.after_raise {p : Params} {s : State} (h : Inv p s) (hb : s.busy = false) (c : ErrCode) :
    Inv p (raise c s) :=
  h.of_idle hb rfl rfl rfl rfl (errCode_bits_le c) h.padsWf h.readyPad

theorem Inv.after_complete {p : Params} {s : State} (h : Inv p s) : Inv p (complete s) :=
  h.of_idle rfl rfl rfl rfl rfl h.errLe h.padsWf h.readyPad

/-- `HRESET` leaves the registers of the reset state, and the pads in their canonical form. -/
theorem Inv.after_hardReset {p : Params} {s : State} (h : Inv p s) : Inv p (hardReset p s) :=
  (invAtReset p).of_idle rfl rfl rfl rfl rfl (by decide : (0 : BitVec 3) ≤ 4) h.padsWf fun hr => Bool.noConfusion hr

/-- One edge of a wait that goes on. -/
theorem Inv.after_countdown {p : Params} {s : State} (h : Inv p s) (hc : 1 < s.cnt) :
    Inv p { s with cnt := s.cnt - 1 } :=
  { h with
    busyCnt := fun _ => Nat.le_sub_one_of_lt hc
    cntLe := fun hexact => (Nat.sub_le _ _).trans (h.cntLe hexact) }

/-- `INIT` configures the pad of the line that it makes the bus, or leaves the block not ready. -/
theorem Inv.after_acceptInit {p : Params} {s : State} (h : Inv p s) (hb : s.busy = false) (id : LineId) :
    Inv p (accept p (.init id) s) := by
  have hwf : Memory.wf (lineConfigure p id s).2.pads = true := Memory.wf_write h.padsWf _ _
  cases ha : p.platform id with
  | ok =>
    rw [accept_init_ok ha]
    refine h.of_idle hb rfl rfl rfl rfl (by decide : (0 : BitVec 3) ≤ 4) hwf fun _ => ?_
    have hpad : (lineConfigure p id s).2.pad id = Pad.configured (p.freeLatch s.trace.length) := by
      rw [pad_lineConfigure_same, ha]
    exact ⟨congrArg Pad.mode hpad, congrArg Pad.pullUp hpad, congrArg Pad.pullDown hpad, congrArg Pad.intEn hpad⟩
  | err e =>
    rw [accept_init_rejected ha]
    exact h.of_idle hb rfl rfl rfl rfl (by decide : (1 : BitVec 3) ≤ 4) hwf fun hr => Bool.noConfusion hr

/-- What a state must satisfy for the entry of its phase to establish the invariant: what the pads hold is that of the
phase before. -/
structure CanEnter (k : SlotKind) (s : State) : Prop where
  busy       : s.busy = true
  ready      : s.ready = true
  err        : s.err = 0
  kind       : kindOf s.op = some k
  phaseLe    : s.phase ≤ lastPhase k
  bitidxZero : isByteOp s.op = false → s.bitidx = 0
  wf         : Memory.wf s.pads = true
  configured : BusConfigured s
  pad        : s.phase ≠ 0 → ((s.pad s.lineId).dir, (s.pad s.lineId).out) = padInPhase k (s.phase - 1)

theorem le_two_of_le_lastPhase {k : SlotKind} {ph : BitVec 2} (h : ph ≤ lastPhase k) : ph ≤ 2 := by
  revert ph
  cases k <;> decide

theorem CanEnter.inv {k : SlotKind} {s : State} (h : CanEnter k s) (p : Params) : Inv p (enter p k s) := by
  have c := enter_sameControl p k s
  have a := enter_keepsAttributes p k s
  obtain ⟨hcnt, hcntLe⟩ := enter_cnt p k s
  obtain ⟨hmode, hup, hdown, hint⟩ := h.configured
  constructor
  case phaseLe => rw [c.phase]; exact le_two_of_le_lastPhase h.phaseLe
  case bitidxZero => rw [c.op, c.bitidx]; exact h.bitidxZero
  case errLe => rw [c.err, h.err]; decide
  case busyReady => exact fun _ => c.ready.trans h.ready
  case busyErr => exact fun _ => c.err.trans h.err
  case busyKind => rw [c.op, c.phase]; exact fun _ => ⟨k, h.kind, h.phaseLe⟩
  case busyCnt => exact fun _ => hcnt
  case cntLe => exact hcntLe
  case padsWf => exact a.wf h.wf
  case readyPad =>
    rw [c.lineId]
    exact fun _ => ⟨a.mode.trans hmode, a.pullUp.trans hup, a.pullDown.trans hdown, a.intEn.trans hint⟩
  case busyPad =>
    intro _ k' hk'
    rw [c.op, h.kind] at hk'
    cases hk'
    rw [c.lineId, c.phase]
    exact enter_pad p k s h.phaseLe h.pad

theorem Inv.canStart {p : Params} {s : State} (h : Inv p s) (hr : s.ready = true) {i : Instr} {k : SlotKind}
    (hk : kindOf i.opcode = some k) :
    CanEnter k { s with
      err := ErrCode.ok.bits, op := i.opcode, sh := loadSh i, bitidx := 0, phase := 0, busy := true } where
  busy := rfl
  ready := hr
  err := rfl
  kind := hk
  phaseLe := Nat.zero_le _
  bitidxZero := fun _ => rfl
  wf := h.padsWf
  configured := h.readyPad hr
  pad := fun h0 => absurd rfl h0

theorem Inv.canEnterNextPhase {p : Params} {s : State} (h : Inv p s) (hb : s.busy = true) {k : SlotKind}
    (hk : kindOf s.op = some k) (hph : s.phase < lastPhase k) : CanEnter k { s with phase := s.phase + 1 } where
  busy := hb
  ready := h.busyReady hb
  err := h.busyErr hb
  kind := hk
  phaseLe := by
    show s.phase + 1 ≤ lastPhase k
    revert hph
    generalize s.phase = ph
    revert ph
    cases k <;> decide
  bitidxZero := h.bitidxZero
  wf := h.padsWf
  configured := h.readyPad (h.busyReady hb)
  pad := fun _ => by
    show _ = padInPhase k (s.phase + 1 - 1)
    rw [BitVec.add_sub_cancel]
    exact h.busyPad hb k hk

theorem Inv.canEnterNextSlot {p : Params} {s : State} (h : Inv p s) (hb : s.busy = true) {k : SlotKind}
    (hk : kindOf s.op = some k) (hbyte : isByteOp s.op = true) (sh : Byte) :
    CanEnter k { s with sh := sh, bitidx := s.bitidx + 1, phase := 0 } where
  busy := hb
  ready := h.busyReady hb
  err := h.busyErr hb
  kind := hk
  phaseLe := Nat.zero_le _
  bitidxZero := fun hno => by cases hbyte.symm.trans hno
  wf := h.padsWf
  configured := h.readyPad (h.busyReady hb)
  pad := fun h0 => absurd rfl h0

theorem Inv.after_endOfWait {p : Params} {s : State} (h : Inv p s) (hb : s.busy = true) {k : SlotKind}
    (hk : kindOf s.op = some k) : Inv p (endOfWait p k s) := by
  obtain ⟨hph, e⟩ | ⟨-, hbyte, -, e⟩ | ⟨-, -, e⟩ := endOfWait_cases p k s <;> rw [e]
  · exact (h.canEnterNextPhase hb hk hph).inv p
  · exact (h.canEnterNextSlot hb hk hbyte _).inv p
  · exact h.after_complete

/-- Under the invariant the sequencer never meets an operation without a slot kind. -/
theorem Inv.after_sequencerEdge {p : Params} {s : State} (h : Inv p s) (hb : s.busy = true) :
    ∃ t, sequencerEdge p s = .next t ∧ Inv p t := by
  obtain ⟨k, hk, -⟩ := h.busyKind hb
  obtain ⟨hc, e⟩ | ⟨-, k', hk', e⟩ | ⟨-, hnone, -⟩ := sequencerEdge_cases p s
  · exact ⟨_, e, h.after_countdown hc⟩
  · exact ⟨_, e, h.after_endOfWait hb hk'⟩
  · cases hk.symm.trans hnone

theorem Inv.after_accept {p : Params} {s : State} (h : Inv p s) (hb : s.busy = false) (i : Instr) :
    Inv p (accept p i s) := by
  cases hi : i.timed with
  | true =>
    cases hr : s.ready with
    | true =>
      obtain ⟨k, hk, e⟩ := accept_timed_ready p hi hr
      rw [e]
      exact (h.canStart hr hk).inv p
    | false =>
      rw [accept_timed_not_ready p hi hr]
      exact h.after_raise hb _
  | false =>
    cases i with
    | init id => exact h.after_acceptInit hb id
    | ppEnable | ppDisable => exact h.after_raise hb _
    | writeBit _ | readBit | writeByte _ | readByte | owReset => cases hi

/-- Settles O44, by the cases of an edge; the one refusal is shut out by the host's duty. -/
theorem dutifulEdgesAdvance : Obligations.DutifulEdgesAdvance := by
  intro p x s h hduty
  obtain ⟨hx, hb, -⟩ | ⟨-, -, e⟩ | ⟨-, hb, e⟩ | ⟨-, hb, -, -, e⟩ | ⟨-, hb, -, i, -, e⟩ | ⟨-, -, -, e⟩ :=
    tickEdge_cases p x s
  · cases hb.symm.trans (hduty hx)
  · exact ⟨_, e, h.after_hardReset.after_tick⟩
  · obtain ⟨t, ht, hinv⟩ := h.after_sequencerEdge hb
    exact ⟨t.tick, by rw [e, ht, onNext_next], hinv.after_tick⟩
  · exact ⟨_, e, (h.after_raise hb _).after_tick⟩
  · exact ⟨_, e, (h.after_accept hb i).after_tick⟩
  · exact ⟨_, e, h.after_tick⟩

/-- An edge that leads to a next state keeps the invariant: the host has kept its duty, or the edge was refused. -/
theorem Inv.after_tickEdge {p : Params} {x : Pins} {s t : State} (h : Inv p s) (ht : tickEdge p x s = .next t) :
    Inv p t := by
  have hduty : HostDuty x s := fun hx => by
    cases hb : s.busy with
    | false => rfl
    | true => cases (tickEdge_hreset_busy p hx hb).symm.trans ht
  obtain ⟨t', ht', hinv⟩ := dutifulEdgesAdvance p x s h hduty
  cases ht'.symm.trans ht
  exact hinv

/-- Settles O43: a step is an edge, after the host's queue has moved on. -/
theorem stepKeepsInv : Obligations.StepKeepsInv := by
  intro s t h ht
  rw [step_eq_stepWith] at ht
  exact h.after_hostMoved.after_tickEdge ht

/-- Settles O45: `floor(log2 n) + 1` bits are those that hold `n` and no fewer, and `CNT` is at most
`480 * TICKS_PER_US`. -/
theorem cntFitsItsWidth : Obligations.CntFitsItsWidth := by
  intro p
  have hpos : Config.tRstLow * p.ticksPerUs ≠ 0 := Nat.mul_ne_zero (by decide) (Nat.ne_of_gt p.ticksPos)
  have hlow : 2 ^ (p.cntWidth - 1) ≤ Config.tRstLow * p.ticksPerUs := Nat.log2_self_le hpos
  have hhigh : Config.tRstLow * p.ticksPerUs < 2 ^ p.cntWidth := Nat.lt_log2_self
  exact ⟨⟨Nat.lt_succ_of_le hlow, hhigh⟩, fun s h hexact => (h.cntLe hexact).trans_lt hhigh⟩

end Sys2Proof
end

section
/-! PROOFS. The operation level's table (40_execution_model.md R115): the samples a command takes, the events, the
result, the time and the pad it leaves. -/

namespace Sys2Proof.Machine

/-- The answers to the samples of a timed command's body, in order. -/
def sampledLevels (p : Params) (i : Instr) (s : State) : List Level :=
  match i with
  | .readBit  => [(opReadSlot p s).1]
  | .readByte => readLevels p Config.bitsPerByte s
  | .owReset  => [(opResetSeq p s).1]
  | .init _ | .writeBit _ | .writeByte _ | .ppEnable | .ppDisable => []

theorem sampledLevels_length (p : Params) (i : Instr) (s : State) :
    (sampledLevels p i s).length = sampleTotal i := by
  cases i <;> simp [sampledLevels, sampleTotal, Config.bitsPerByte]

theorem zext8_eq_byteOfLevels (l : Level) : zext8 l.bit = byteOfLevels [l] := by
  cases l <;> decide

theorem zext8_not_eq_all (l : Level) : zext8 (!l.bit) = zext8 ([l].all fun l => !l.bit) := by
  cases l <;> rfl

/-- What the row of a timed command says of the state `t` that its body leads to from `s`, `ls` being the answers to its
samples; beside `RESULT` the body keeps every register of the host (R115, and 10_state.md R42 for the pad). -/
structure TableRow (p : Params) (i : Instr) (ls : List Level) (s t : State) : Prop where
  kept   : Kept s { t with result := s.result }
  events : t.events = s.events ++ tableTrace s.lineId i ls
  result : t.result = tableResult i ls s.result
  now    : p.delay = .exact → t.now = s.now + durationUs i * p.ticksPerUs
  pad    : t.pad s.lineId = { s.pad s.lineId with
             dir := (if 0 < sampleTotal i then .input else .output), out := .high }

/-- A command's slots and then its write of `RESULT` make its row. -/
theorem TableRow.of_slots {p : Params} {i : Instr} {ls : List Level} {s u : State} {r : Byte} (kept : Kept s u)
    (events : u.events = s.events ++ tableTrace s.lineId i ls) (result : r = tableResult i ls s.result)
    (now : p.delay = .exact → u.now = s.now + durationUs i * p.ticksPerUs)
    (pad : u.pad s.lineId = { s.pad s.lineId with
      dir := (if 0 < sampleTotal i then .input else .output), out := .high }) :
    TableRow p i ls s { u with result := r } :=
  ⟨⟨kept.lineId, kept.ready, kept.busy, kept.err, kept.cfgerr, rfl, kept.host, kept.pads⟩, events, result, now, pad⟩

/-- A command that writes no `RESULT` makes its row by its slots alone. -/
theorem TableRow.of_kept {p : Params} {i : Instr} {ls : List Level} {s u : State} (kept : Kept s u)
    (events : u.events = s.events ++ tableTrace s.lineId i ls) (result : s.result = tableResult i ls s.result)
    (now : p.delay = .exact → u.now = s.now + durationUs i * p.ticksPerUs)
    (pad : u.pad s.lineId = { s.pad s.lineId with
      dir := (if 0 < sampleTotal i then .input else .output), out := .high }) :
    TableRow p i ls s u :=
  ⟨⟨kept.lineId, kept.ready, kept.busy, kept.err, kept.cfgerr, rfl, kept.host, kept.pads⟩, events,
    kept.result.trans result, now, pad⟩

/-- Everything the body of a timed command does. -/
theorem operateBody_tableRow (p : Params) {i : Instr} (hi : i.timed = true) (s : State) :
    TableRow p i (sampledLevels p i s) s (operateBody p i s) := by
  cases i with
  | init _ | ppEnable | ppDisable => cases hi
  | writeBit b =>
    obtain ⟨kept, events, now, pad⟩ := opWriteSlot_spec p b s
    exact .of_kept kept events rfl now pad
  | readBit =>
    obtain ⟨kept, events, now, pad⟩ := opReadSlot_spec p s
    refine .of_slots kept ?_ (zext8_eq_byteOfLevels _) now pad
    rw [events, tableTrace, sampledLevels, List.flatMap_singleton]
  | writeByte v =>
    obtain ⟨kept, events, now, pad⟩ := opWriteLoop_spec p Config.bitsPerByte v s
    exact .of_kept kept events rfl now (pad (by decide))
  | readByte =>
    obtain ⟨kept, events, now, pad, acc⟩ := opReadLoop_spec p Config.bitsPerByte 0x00 s
    have hbyte := shiftIn_eight _ (readLevels_length p Config.bitsPerByte s)
    exact .of_slots kept events (acc.trans hbyte) now (pad (by decide))
  | owReset =>
    obtain ⟨kept, events, now, pad⟩ := opResetSeq_spec p s
    refine .of_slots kept ?_ (zext8_not_eq_all _) now pad
    rw [events, tableTrace, sampledLevels, List.flatMap_singleton]

theorem operate_not_ready (p : Params) {i : Instr} (hi : i.timed = true) {s : State} (hr : s.ready = false) :
    operate p i s = raise .notReady s := by
  cases i with
  | init _ | ppEnable | ppDisable => cases hi
  | writeBit _ | readBit | writeByte _ | readByte | owReset => simp [operate, hr]

/-- A timed command of a ready block, by its row of the table. -/
theorem operate_timed_row (p : Params) {i : Instr} (hi : i.timed = true) {s : State} (hr : s.ready = true) :
    ∃ (ls : List Level) (new : List Stamped), ls.length = sampleTotal i ∧
      (operate p i s).trace = s.trace ++ new ∧ new.map Stamped.event = tableTrace s.lineId i ls ∧
      answers p s.trace new ∧
      (operate p i s).result = tableResult i ls s.result ∧ (operate p i s).err = 0 ∧
      (p.delay = .exact → (operate p i s).now = s.now + durationUs i * p.ticksPerUs) := by
  rw [operate_ready p i s hi hr]
  have row := operateBody_tableRow p hi { s with err := ErrCode.ok.bits }
  obtain ⟨new, htrace, hanswers⟩ := operateBody_answered p i { s with err := ErrCode.ok.bits }
  refine ⟨_, new, sampledLevels_length p i { s with err := ErrCode.ok.bits }, htrace, ?_, hanswers,
    row.result, row.kept.err, row.now⟩
  simpa [State.events_def, htrace] using row.events

theorem operate_init_events (p : Params) (id : LineId) (s : State) :
    (operate p (.init id) s).events = s.events ++ [.configure id (p.platform id)] ∧
      (operate p (.init id) s).now = s.now := by
  show (accept p (.init id) s).events = _ ∧ (accept p (.init id) s).now = _
  cases h : p.platform id with
  | ok => rw [accept_init_ok h]; simp [State.events_def, h]
  | err e => rw [accept_init_rejected h]; simp [State.events_def, h]

/-- Settles O46, row by row. -/
theorem operationTable : Obligations.OperationTable := by
  refine ⟨fun p i s hi => operate_timed_row p hi, fun p id s => ?_, fun _ _ => ⟨rfl, rfl⟩,
    fun p i s hi => operate_not_ready p hi, fun p w why s hd => acceptWord_of_illegal hd _ s⟩
  obtain ⟨events, now⟩ := operate_init_events p id s
  exact ⟨events, now, rfl⟩

/-- Settles O49: a body leaves the latch high, the direction that of its last phase, and every other pad alone. -/
theorem releasedAtCompletion : Obligations.ReleasedAtCompletion := by
  intro p i s hi hr
  rw [operate_ready p i s hi hr]
  have row := operateBody_tableRow p hi { s with err := ErrCode.ok.bits }
  exact ⟨drives_eq_false_of_high (congrArg Pad.out row.pad), row.pad, row.kept.pads⟩

end Sys2Proof.Machine
end

section
/-! PROOFS. `OW_RESET` at the operation level: one pulse, and one sample that decides (44_reset_presence.md R150 to
R154). -/

namespace Sys2Proof.Machine

theorem operate_owReset_result (p : Params) {s : State} (hr : s.ready = true) :
    (operate p .owReset s).result = if p.oracle (presenceQuery p s) = .low then 1 else 0 := by
  have hanswer : (opResetSeq p { s with err := ErrCode.ok.bits }).1 = p.oracle (presenceQuery p s) :=
    opResetSeq_answer p _
  rw [operate_ready p _ s rfl hr, operateBody, hanswer]
  cases p.oracle (presenceQuery p s) <;> rfl

/-- What a `READ_BIT` answers on a line that reads High whenever it is sampled. -/
theorem operate_readBit_result_of_high {p : Params} (ho : ∀ q, p.oracle q = .high) {s : State} (hr : s.ready = true) :
    (operate p .readBit s).result = 1 := by
  have hanswer : (opReadSlot p { s with err := ErrCode.ok.bits }).1 = .high := ho _
  rw [operate_ready p _ s rfl hr, operateBody, hanswer]
  rfl

theorem presenceQuery_atPresenceSample (p : Params) (s : State) :
    (presenceQuery p s).atPresenceSample p = true := by
  simp [SampleQuery.atPresenceSample, presenceQuery]

/-- With exact waits the deciding sample comes 480 + 70 microseconds after the start of the pulse. -/
theorem presenceQuery_time {p : Params} (h : p.delay = .exact) (s : State) :
    (presenceQuery p s).time = s.now + 550 * p.ticksPerUs := by
  simp only [presenceQuery, waitTicks_exact h, Config.tRstLow, Config.tRstWait]
  ring

theorem count_low_rstSeq (L : LineId) (l : Level) : (rstSeq L l).count (.level L .low) = 1 := by
  simp [rstSeq]

/-- Settles O52: the pulse is counted in the command's row of the table; the presence sample is one at which a
responder pulls low, and without a device every sample is High. -/
theorem presenceOutcome : Obligations.PresenceOutcome := by
  intro p s hr
  have hresult := operate_owReset_result p hr
  have row := operateBody_tableRow p (i := .owReset) rfl { s with err := ErrCode.ok.bits }
  refine ⟨?_, ?_, fun env ho => ⟨fun ⟨hup, hno⟩ => ?_, fun ⟨_, hresp⟩ => ?_⟩⟩
  · rw [operate_ready p _ s rfl hr]
    exact row.kept.err
  · rw [operate_ready p _ s rfl hr, row.events, List.count_append]
    simp [tableTrace, sampledLevels, count_low_rstSeq, State.events_def]
  · have hhigh : ∀ q, p.oracle q = .high := fun q => by rw [ho, Environment.oracle_of_pullUp (hno q) (hup q)]
    rw [hresult, hhigh]
    exact ⟨rfl, operate_readBit_result_of_high hhigh hr⟩
  · rw [hresult, ho, Environment.oracle_of_pullsLow (hresp _ (presenceQuery_atPresenceSample p s))]
    rfl

theorem Environment.oracle_eq_low_iff (env : Environment) (q : SampleQuery) :
    env.oracle q = .low ↔ env.pullsLow q = true ∨ (env.pullUp q = false ∧ env.floating q = .low) := by
  unfold Environment.oracle
  cases env.pullsLow q <;> cases env.pullUp q <;> simp

/-- Settles O53: `RESULT` is a function of the oracle's answer to the one query. -/
theorem oneSampleDecides : Obligations.OneSampleDecides := by
  intro p s hr
  have hresult := operate_owReset_result p hr
  refine ⟨presenceQuery_atPresenceSample p s, fun h => presenceQuery_time h s, hresult, fun o heq => ?_,
    fun env ho => ?_⟩
  · rw [operate_owReset_result { p with oracle := o } hr, hresult, ← heq]
    rfl
  · rw [hresult, ho, ← Environment.oracle_eq_low_iff]
    split <;> simp_all

end Sys2Proof.Machine
end

section
/-! PROOFS. The byte commands are their eight bit commands (43_byte_transport.md R142). -/

namespace Sys2Proof.Machine

/-- The state in which a timed command's body begins. -/
def State.clearErr (s : State) : State := { s with err := ErrCode.ok.bits }

theorem State.clearErr_of_err_zero {s : State} (h : s.err = 0) : s.clearErr = s := by
  show { s with err := 0 } = s
  rw [← h]

theorem operate_ready_clearErr (p : Params) {i : Instr} (hi : i.timed = true) {s : State} (hr : s.ready = true) :
    operate p i s = operateBody p i s.clearErr := operate_ready p i s hi hr

/-- A timed command writes `ERR` first, so the `ERR` it finds has no part in what it does. -/
theorem operate_clearErr (p : Params) {i : Instr} (hi : i.timed = true) (s : State) :
    operate p i s.clearErr = operate p i s := by
  cases i with
  | init _ | ppEnable | ppDisable => cases hi
  | writeBit _ | readBit | writeByte _ | readByte | owReset => rfl

/-- The operation level, once `ERR` is clear. -/
theorem operate_of_err_zero (p : Params) {i : Instr} (hi : i.timed = true) {s : State} (hr : s.ready = true)
    (he : s.err = 0) : operate p i s = operateBody p i s := by
  rw [operate_ready_clearErr p hi hr, State.clearErr_of_err_zero he]

/-! ### Writes -/

/-- `n` bits of `v` sent one by one, in a ready state with `ERR` clear, are `n` turns of the loop of `WRITE_BYTE`. -/
theorem foldl_writeBit_eq_opWriteLoop (p : Params) (n : Nat) (v : Byte) (s : State) (hr : s.ready = true)
    (he : s.err = 0) :
    ((List.range n).map v.getLsbD).foldl (fun t b => operate p (.writeBit b) t) s = opWriteLoop p n v s := by
  induction n generalizing v s with
  | zero => rfl
  | succ n ih =>
    obtain ⟨kept, -, -, -⟩ := opWriteSlot_spec p (lowBit v) s
    have hslot : operate p (.writeBit (v.getLsbD 0)) s = opWriteSlot p (lowBit v) s :=
      operate_of_err_zero p rfl hr he
    rw [List.range_succ_eq_map, List.map_cons, List.foldl_cons, hslot, List.map_map, opWriteLoop,
      ← ih (shiftOut v) _ (kept.ready.trans hr) (kept.err.trans he), getLsbD_shiftOut]
    rfl

/-- Writes to a block that is not ready leave `NOT_READY` and nothing else. -/
theorem foldl_writeBit_not_ready (p : Params) (bs : List Bool) {s : State} (hr : s.ready = false) :
    bs.foldl (fun t b => operate p (.writeBit b) t) (raise .notReady s) = raise .notReady s := by
  induction bs with
  | nil => rfl
  | cons b bs ih =>
    have hb : operate p (.writeBit b) (raise .notReady s) = raise .notReady s := operate_not_ready p rfl hr
    rw [List.foldl_cons, hb, ih]

theorem foldl_writeBit_eq_writeByte (p : Params) (v : Byte) (s : State) :
    (bitsLsbFirst v).foldl (fun t b => operate p (.writeBit b) t) s = operate p (.writeByte v) s := by
  have hbits : bitsLsbFirst v = v.getLsbD 0 :: (bitsLsbFirst v).tail := rfl
  cases hr : s.ready with
  | false =>
    rw [operate_not_ready p rfl hr, hbits, List.foldl_cons, operate_not_ready p rfl hr]
    exact foldl_writeBit_not_ready p _ hr
  | true =>
    have hfirst : (bitsLsbFirst v).foldl (fun t b => operate p (.writeBit b) t) s =
        (bitsLsbFirst v).foldl (fun t b => operate p (.writeBit b) t) s.clearErr := by
      rw [hbits, List.foldl_cons, List.foldl_cons, operate_clearErr p rfl]
    rw [hfirst, operate_ready_clearErr p rfl hr, operateBody]
    exact foldl_writeBit_eq_opWriteLoop p Config.bitsPerByte v s.clearErr hr rfl

/-! ### Reads -/

theorem lineDir_setResult (id : LineId) (d : Direction) (s : State) (r : Byte) :
    lineDir id d { s with result := r } = { lineDir id d s with result := r } := rfl

theorem lineLevel_setResult (id : LineId) (l : Level) (s : State) (r : Byte) :
    lineLevel id l { s with result := r } = { lineLevel id l s with result := r } := rfl

theorem delay_setResult (p : Params) (n : Nat) (s : State) (r : Byte) :
    delay p n { s with result := r } = { delay p n s with result := r } := rfl

theorem lineSample_setResult (p : Params) (id : LineId) (s : State) (r : Byte) :
    lineSample p id { s with result := r } = ((lineSample p id s).1, { (lineSample p id s).2 with result := r }) := rfl

/-- A read slot neither reads nor writes `RESULT`. -/
theorem opReadSlot_setResult (p : Params) (s : State) (r : Byte) :
    opReadSlot p { s with result := r } = ((opReadSlot p s).1, { (opReadSlot p s).2 with result := r }) := by
  simp only [opReadSlot, opSenseSlot, lineDir_setResult, lineLevel_setResult, delay_setResult, lineSample_setResult]

theorem opReadLoop_setResult (p : Params) (n : Nat) (a : Byte) (s : State) (r : Byte) :
    (opReadLoop p n a { s with result := r }).2 = { (opReadLoop p n a s).2 with result := r } := by
  induction n generalizing a s with
  | zero => rfl
  | succ n ih =>
    simp only [opReadLoop, opReadSlot_setResult]
    exact ih _ _

/-- `READ_BYTE` is its loop, but for `RESULT`. -/
theorem operateBody_readByte_setResult (p : Params) (s : State) (r : Byte) :
    { operateBody p .readByte s with result := r } = { (opReadLoop p 8 0x00 s).2 with result := r } := by
  have hbody : operateBody p .readByte s =
      { (opReadLoop p 8 0x00 s).2 with result := (opReadLoop p 8 0x00 s).1 } := rfl
  rw [hbody]

theorem readLevels_setResult (p : Params) (n : Nat) (s : State) (r : Byte) :
    readLevels p n { s with result := r } = readLevels p n s := by
  induction n generalizing s with
  | zero => rfl
  | succ n ih =>
    simp only [readLevels, opReadSlot_setResult]
    exact congrArg _ (ih _)

/-- `READ_BIT` in a ready state with `ERR` clear: one read slot, and its bit in `RESULT`. -/
theorem operate_readBit (p : Params) {s : State} (hr : s.ready = true) (he : s.err = 0) :
    operate p .readBit s = { (opReadSlot p s).2 with result := zext8 (opReadSlot p s).1.bit } :=
  operate_of_err_zero p rfl hr he

theorem operate_readBit_ready (p : Params) {s : State} (hr : s.ready = true) (he : s.err = 0) :
    (operate p .readBit s).ready = true := by
  obtain ⟨kept, -⟩ := opReadSlot_spec p s
  rw [operate_readBit p hr he]
  exact kept.ready.trans hr

theorem operate_readBit_err (p : Params) {s : State} (hr : s.ready = true) (he : s.err = 0) :
    (operate p .readBit s).err = 0 := by
  obtain ⟨kept, -⟩ := opReadSlot_spec p s
  rw [operate_readBit p hr he]
  exact kept.err.trans he

/-- `n` reads of a bit are `n` turns of the loop of `READ_BYTE`, but for `RESULT`. -/
theorem iterate_readBit_eq_opReadLoop (p : Params) (n : Nat) (a : Byte) {s : State} (hr : s.ready = true)
    (he : s.err = 0) (r : Byte) :
    { (operate p .readBit)^[n] s with result := r } = { (opReadLoop p n a s).2 with result := r } := by
  induction n generalizing a s with
  | zero => rfl
  | succ n ih =>
    rw [Function.iterate_succ_apply, ih (shiftIn (opReadSlot p s).1.bit a) (operate_readBit_ready p hr he)
      (operate_readBit_err p hr he), operate_readBit p hr he, opReadLoop_setResult, opReadLoop]

/-- The `k`-th read leaves the `k`-th level sampled in `RESULT`. -/
theorem iterate_readBit_result (p : Params) {n k : Nat} (hk : k < n) {s : State} (hr : s.ready = true)
    (he : s.err = 0) :
    ((operate p .readBit)^[k + 1] s).result = zext8 ((readLevels p n s).getD k .low).bit := by
  induction k generalizing n s with
  | zero =>
    cases n with
    | zero => cases hk
    | succ n => rw [zero_add, Function.iterate_one, operate_readBit p hr he, readLevels, List.getD_cons_zero]
  | succ k ih =>
    cases n with
    | zero => cases hk
    | succ n =>
      have hnext := ih (Nat.lt_of_succ_lt_succ hk) (operate_readBit_ready p hr he) (operate_readBit_err p hr he)
      rw [Function.iterate_succ_apply, hnext, operate_readBit p hr he, readLevels_setResult, readLevels,
        List.getD_cons_succ]

theorem iterate_readBit_clearErr (p : Params) {n : Nat} (hn : 0 < n) (s : State) :
    (operate p .readBit)^[n] s = (operate p .readBit)^[n] s.clearErr := by
  obtain ⟨m, rfl⟩ := Nat.exists_eq_add_one.mpr hn
  rw [Function.iterate_succ_apply, Function.iterate_succ_apply, operate_clearErr p rfl]

theorem byteOfLevels_getLsbD {k : Nat} (hk : k < 8) (ls : List Level) :
    (byteOfLevels ls).getLsbD k = (ls.getD k .low).bit := by
  rw [byteOfLevels, BitVec.getLsbD_setWidth, BitVec.getLsbD_ofBoolListLE]
  simp only [hk, decide_true, Bool.true_and, List.getD_eq_getElem?_getD, List.getElem?_take, if_true, List.getElem?_map]
  cases ls[k]? <;> rfl

theorem zext8_getLsbD_zero (b : Bool) : (zext8 b).getLsbD 0 = b := by
  cases b <;> rfl

/-- Settles O50: a loop turn is a bit command but for `RESULT`, which a write does not touch, and of which a read of
eight levels holds one per bit. -/
theorem bytesAreEightBits : Obligations.BytesAreEightBits := by
  refine ⟨foldl_writeBit_eq_writeByte, fun p s hr => ⟨?_, fun k hk => ?_⟩⟩
  · rw [operate_ready_clearErr p rfl hr, iterate_readBit_clearErr p (by decide)]
    rw [operateBody_readByte_setResult]
    exact (iterate_readBit_eq_opReadLoop p 8 0x00 (s := s.clearErr) hr rfl s.result).symm
  · have row := operateBody_tableRow p (i := .readByte) rfl s.clearErr
    rw [operate_ready_clearErr p rfl hr, row.result, iterate_readBit_clearErr p (n := k + 1) (Nat.succ_pos k),
      iterate_readBit_result p (n := 8) (s := s.clearErr) hk hr rfl, zext8_getLsbD_zero]
    exact byteOfLevels_getLsbD hk _

end Sys2Proof.Machine
end

section
/-! PROOFS. The round trip of a byte under the test device Loopback (43_byte_transport.md R145): the queue of the device
slot by slot. -/

namespace Sys2Proof.Machine

theorem dirInput_prefix {r b r' : List Event} {L id : LineId}
    (h : r ++ .dir L .output :: b = .dir id .input :: r') : ∃ r₁, r = .dir id .input :: r₁ := by
  cases r with
  | nil => simp at h
  | cons e r => exact ⟨r, congrArg (· :: r) (List.cons.inj h).1⟩

theorem pulse_prefix {r b r' : List Event} {L id : LineId} {n : Nat}
    (h : r ++ .dir L .output :: b = .wait n :: .level id .high :: r') :
    ∃ r₁, r = .wait n :: .level id .high :: r₁ := by
  match r with
  | [] => simp at h
  | [_] => simp at h
  | e :: f :: r =>
    simp only [List.cons_append, List.cons.injEq] at h
    obtain ⟨rfl, rfl, -⟩ := h
    exact ⟨r, rfl⟩

theorem loopQueue_append_dirOutput (q : List Bool) (a : List Event) (L : LineId) (b : List Event) :
    loopQueue q (a ++ .dir L .output :: b) = loopQueue (loopQueue q a) b := by
  fun_induction loopQueue q a with
  | case1 => simp [loopQueue]
  | case2 _ _ _ _ _ _ ih => simpa [loopQueue] using ih
  | case3 q id n id₁ r hinput ih =>
    rw [← ih]
    refine loopQueue.eq_3 q id n id₁ (r ++ .dir L .output :: b) fun id₂ r' h => ?_
    obtain ⟨r₁, hr⟩ := dirInput_prefix h
    exact hinput id₂ r₁ hr
  | case4 _ _ _ _ ih => simpa [loopQueue] using ih
  | case5 q e r _ hpulse hsample ih =>
    rw [← ih]
    refine loopQueue.eq_5 q e (r ++ .dir L .output :: b) (fun id n id₁ id₂ r' he h => ?_)
      (fun id n id₁ r' he h => ?_) hsample
    · obtain ⟨r₁, hr⟩ := pulse_prefix h
      exact hpulse id n id₁ r₁ he hr
    · obtain ⟨r₁, hr⟩ := pulse_prefix h
      exact hpulse id n id₁ r₁ he hr

theorem loopQueue_append_slotW (q : List Bool) (a : List Event) (L : LineId) (b : Bool) :
    loopQueue q (a ++ slotW L b) = loopQueue q a ++ [b] := by
  cases b <;> simp [slotW, loopQueue_append_dirOutput, loopQueue]

theorem loopQueue_append_slotR (q : List Bool) (a : List Event) (L : LineId) (l : Level) :
    loopQueue q (a ++ slotR L l) = (loopQueue q a).tail := by
  simp [slotR, loopQueue_append_dirOutput, loopQueue]

/-- Write slots fill the queue with their bits, in order. -/
theorem loopQueue_append_slotWs (q : List Bool) (a : List Event) (L : LineId) (bs : List Bool) :
    loopQueue q (a ++ bs.flatMap (slotW L)) = loopQueue q a ++ bs := by
  induction bs generalizing a with
  | nil => simp
  | cons b bs ih =>
    rw [List.flatMap_cons, ← List.append_assoc, ih, loopQueue_append_slotW, List.append_assoc, List.singleton_append]

theorem loopbackOracle_of_queue {q : SampleQuery} {b : Bool} {bs : List Bool}
    (h : loopQueue [] (q.trace.map Stamped.event) = b :: bs) : loopbackOracle q = Level.ofBit b := by
  rw [loopbackOracle, h]

/-- A read slot samples the head of the queue. -/
theorem opReadSlot_answer_of_queue {p : Params} (ho : p.oracle = loopbackOracle) {s : State} {b : Bool}
    {bs : List Bool} (h : loopQueue [] s.events = b :: bs) : (opReadSlot p s).1 = Level.ofBit b := by
  simp only [opReadSlot, opSenseSlot, lineSample, ho]
  refine loopbackOracle_of_queue (bs := bs) ?_
  simp [State.query, ← State.events_def, loopQueue_append_dirOutput, loopQueue, h]

/-- As many read slots as there are bits in the queue sample them in order. -/
theorem readLevels_of_queue {p : Params} (ho : p.oracle = loopbackOracle) (bs : List Bool) {s : State}
    (h : loopQueue [] s.events = bs) : readLevels p bs.length s = bs.map Level.ofBit := by
  induction bs generalizing s with
  | nil => rfl
  | cons b bs ih =>
    obtain ⟨-, events, -, -⟩ := opReadSlot_spec p s
    have htail : loopQueue [] (opReadSlot p s).2.events = bs := by
      rw [events, loopQueue_append_slotR, h, List.tail_cons]
    rw [List.length_cons, readLevels, opReadSlot_answer_of_queue ho h, ih htail, List.map_cons]

theorem Level.bit_ofBit (b : Bool) : (Level.ofBit b).bit = b := by
  cases b <;> rfl

/-- A byte is the levels of its eight bits, bit 0 first. -/
theorem byteOfLevels_bitsLsbFirst (v : Byte) : byteOfLevels ((bitsLsbFirst v).map Level.ofBit) = v := by
  refine BitVec.eq_of_getLsbD_eq fun k hk => ?_
  rw [byteOfLevels_getLsbD hk]
  simp [bitsLsbFirst, hk, Level.bit_ofBit]

/-- Settles O51: `WRITE_BYTE v` fills the empty queue with the bits of `v`, and `READ_BYTE` takes them out. -/
theorem loopbackRoundTrip : Obligations.LoopbackRoundTrip := by
  intro p v s ho hr hempty
  have sent := operateBody_tableRow p (i := .writeByte v) rfl s.clearErr
  have hready : (operate p (.writeByte v) s).ready = true := by
    rw [operate_ready_clearErr p rfl hr]
    exact sent.kept.ready.trans hr
  have hqueue : loopQueue [] (operate p (.writeByte v) s).clearErr.events = bitsLsbFirst v := by
    show loopQueue [] (operate p (.writeByte v) s).events = _
    rw [operate_ready_clearErr p rfl hr, sent.events, tableTrace, loopQueue_append_slotWs]
    show loopQueue [] s.events ++ _ = _
    rw [hempty, List.nil_append]
  have received := operateBody_tableRow p (i := .readByte) rfl (operate p (.writeByte v) s).clearErr
  rw [operate_ready_clearErr p rfl hready, received.result, tableResult, sampledLevels]
  exact (congrArg byteOfLevels (readLevels_of_queue ho _ hqueue)).trans (byteOfLevels_bitsLsbFirst v)

end Sys2Proof.Machine
end

section
/-! PROOFS. The clock edges of a timed command lead to what the operation level says (40_execution_model.md R116). -/

namespace Sys2Proof.Machine

/-- A state that follows `u`, completed with the result `r`, is `u` with that result, for an observer. -/
theorem Follows.complete_observable {s u : State} (h : Follows s u) (hidle : u.busy = false) {r : Byte}
    (hr : completionResult s = r) : (complete s).tick.observable = ({ u with result := r } : State).tick.observable := by
  obtain ⟨pads, trace, now, lineId, ready, err, cfgerr, -, host⟩ := h
  simp [State.observable, State.tick, complete, *]

/-- The edges of an accepted command reach, after the time the operation level takes, a completed state that an observer
cannot tell from the operation level's. -/
def ReachesOperation (p : Params) (i : Instr) (s : State) : Prop :=
  ∃ t, Reaches p (accept p i s).tick ((operate p i s).now - s.now) t ∧
    t.observable = (operate p i s).tick.observable ∧ s.now ≤ (operate p i s).now

/-- The state in which a timed command enters its first phase. -/
def State.started (i : Instr) (s : State) : State :=
  { s with err := ErrCode.ok.bits, op := i.opcode, sh := loadSh i, bitidx := 0, phase := 0, busy := true }

theorem State.started_follows (i : Instr) (s : State) : Follows (s.started i) s.clearErr :=
  ⟨rfl, rfl, rfl, rfl, rfl, rfl, rfl, rfl, rfl⟩

theorem accept_eq_enter_started (p : Params) {i : Instr} {k : SlotKind} (hk : kindOf i.opcode = some k) {s : State}
    (hr : s.ready = true) : accept p i s = enter p k (s.started i) :=
  accept_timed_ready_of_kind p hk hr

/-- A command whose last slot ends in `s'` completes there: not a byte command, or its eighth slot. -/
theorem endOfWait_bitOp (p : Params) {k : SlotKind} {s : State} (hph : s.phase = lastPhase k)
    (hop : isByteOp s.op = false) : endOfWait p k s = complete s := by
  refine endOfWait_complete p (by rw [hph]; exact BitVec.lt_irrefl _) fun ⟨hbyte, _⟩ => ?_
  cases hop.symm.trans ((isByteOp_iff _).mpr hbyte)

theorem ReachesOperation.of_follows {p : Params} {i : Instr} {k : SlotKind} {s t u : State} {r : Byte}
    (hk : kindOf i.opcode = some k) (hr : s.ready = true) (hidle : s.busy = false)
    (hbody : operateBody p i s.clearErr = { u with result := r }) (hkept : Kept s.clearErr u) (hnow : s.now ≤ u.now)
    (hreach : Reaches p (enter p k (s.started i)).tick (u.now - s.now) (complete t).tick) (hfollow : Follows t u)
    (hresult : completionResult t = r) : ReachesOperation p i s := by
  have hi : i.timed = true := (timed_iff_exists_kind i).mpr ⟨k, hk⟩
  rw [ReachesOperation, accept_eq_enter_started p hk hr, operate_ready_clearErr p hi hr, hbody]
  exact ⟨_, hreach, hfollow.complete_observable (hkept.busy.trans hidle) hresult, hnow⟩

/-- A write leaves `RESULT` as its slots leave it. -/
theorem ReachesOperation.of_write_follows {p : Params} {i : Instr} {k : SlotKind} {s t u : State}
    (hk : kindOf i.opcode = some k) (hr : s.ready = true) (hidle : s.busy = false)
    (hbody : operateBody p i s.clearErr = u) (hkept : Kept s.clearErr u) (hnow : s.now ≤ u.now)
    (hreach : Reaches p (enter p k (s.started i)).tick (u.now - s.now) (complete t).tick) (hfollow : Follows t u)
    (hop : t.op = 1 ∨ t.op = 3) : ReachesOperation p i s :=
  .of_follows (r := u.result) hk hr hidle hbody hkept hnow hreach hfollow
    ((completionResult_write hop).trans hfollow.result)

theorem lowBit_loadSh_writeBit (b : Bool) : lowBit (loadSh (.writeBit b)) = b := by
  cases b <;> decide

theorem writeBit_reachesOperation (p : Params) (b : Bool) {s : State} (hr : s.ready = true) (hidle : s.busy = false) :
    ReachesOperation p (.writeBit b) s := by
  obtain ⟨t, hreach, hfollow, -, hop, hph, -, -⟩ :=
    follow_writeSlot p (s.started (.writeBit b)) s.clearErr rfl rfl rfl (s.started_follows _)
  rw [show lowBit (s.started (.writeBit b)).sh = b from lowBit_loadSh_writeBit b] at hreach hfollow
  rw [endOfWait_bitOp p hph (by rw [hop]; rfl)] at hreach
  obtain ⟨kept, -⟩ := opWriteSlot_spec p b s.clearErr
  exact .of_write_follows rfl hr hidle rfl kept (opWriteSlot_now_le p b s.clearErr) hreach hfollow (.inl hop)

theorem writeByte_reachesOperation (p : Params) (v : Byte) {s : State} (hr : s.ready = true) (hidle : s.busy = false) :
    ReachesOperation p (.writeByte v) s := by
  obtain ⟨t, hreach, hfollow, hop⟩ :=
    follow_writeLoop p 7 (s.started (.writeByte v)) s.clearErr rfl rfl rfl rfl (s.started_follows _)
  obtain ⟨kept, -⟩ := opWriteLoop_spec p 8 v s.clearErr
  exact .of_write_follows rfl hr hidle rfl kept (opWriteLoop_now_le p 8 v s.clearErr) hreach hfollow (.inr hop)

theorem readBit_reachesOperation (p : Params) {s : State} (hr : s.ready = true) (hidle : s.busy = false) :
    ReachesOperation p .readBit s := by
  obtain ⟨t, hreach, hfollow, -, hop, hph, -, hsamp, -⟩ :=
    follow_senseSlot p .readSlot (by decide) (s.started .readBit) s.clearErr rfl rfl rfl (s.started_follows _)
  rw [endOfWait_bitOp p hph (by rw [hop]; rfl)] at hreach
  obtain ⟨kept, -⟩ := opReadSlot_spec p s.clearErr
  refine .of_follows rfl hr hidle rfl kept (senseSlot_now_le p .readSlot s.clearErr) hreach hfollow ?_
  rw [completionResult_readBit hop, hsamp, ← zext8_eq]
  rfl

theorem readByte_reachesOperation (p : Params) {s : State} (hr : s.ready = true) (hidle : s.busy = false) :
    ReachesOperation p .readByte s := by
  obtain ⟨t, hreach, hfollow, hop, hsh⟩ :=
    follow_readLoop p 7 (s.started .readByte) s.clearErr rfl rfl rfl rfl (s.started_follows _)
  obtain ⟨kept, -⟩ := opReadLoop_spec p 8 0x00 s.clearErr
  exact .of_follows rfl hr hidle rfl kept (opReadLoop_now_le p 8 0x00 s.clearErr) hreach hfollow
    ((completionResult_readByte hop).trans hsh)

theorem zext8_not (b : Bool) : zext8 (!b) = if b then 0 else 1 := by
  cases b <;> rfl

theorem owReset_reachesOperation (p : Params) {s : State} (hr : s.ready = true) (hidle : s.busy = false) :
    ReachesOperation p .owReset s := by
  obtain ⟨t, hreach, hfollow, -, hop, hph, -, hsamp, -⟩ :=
    follow_senseSlot p .resetSeq (by decide) (s.started .owReset) s.clearErr rfl rfl rfl (s.started_follows _)
  rw [endOfWait_bitOp p hph (by rw [hop]; rfl)] at hreach
  obtain ⟨kept, -⟩ := opResetSeq_spec p s.clearErr
  refine .of_follows rfl hr hidle rfl kept (senseSlot_now_le p .resetSeq s.clearErr) hreach hfollow ?_
  rw [completionResult_owReset hop, hsamp, ← zext8_not]
  rfl

theorem timed_reachesOperation (p : Params) {i : Instr} (hi : i.timed = true) {s : State} (hr : s.ready = true)
    (hidle : s.busy = false) : ReachesOperation p i s := by
  cases i with
  | init _ | ppEnable | ppDisable => cases hi
  | writeBit b => exact writeBit_reachesOperation p b hr hidle
  | readBit => exact readBit_reachesOperation p hr hidle
  | writeByte v => exact writeByte_reachesOperation p v hr hidle
  | readByte => exact readByte_reachesOperation p hr hidle
  | owReset => exact owReset_reachesOperation p hr hidle

/-- Settles O47: each timed command's edges reach its operation. -/
theorem levelsAgree : Obligations.LevelsAgree := by
  intro p i s xs hi hr hidle hxs
  obtain ⟨t, ⟨hend, hbefore⟩, hobs, hnow⟩ := timed_reachesOperation p hi hr hidle
  exact ⟨fun hlen => ⟨t, hend xs hxs (by omega), hobs⟩, fun hlen => hbefore xs hxs (by omega)⟩

/-- Settles O48: the edges reach the operation level's state, which is the row of the table; with exact waits it takes
the row's duration. -/
theorem execRunsToTable : Obligations.ExecRunsToTable := by
  intro i s xs hi hr hidle hxs hlen
  obtain ⟨ls, new, hls, htrace, hevents, hanswers, hresult, herr, hnow⟩ := operate_timed_row Config.params hi hr
  have hkept : Kept s.clearErr { operate Config.params i s with result := s.result } := by
    rw [operate_ready_clearErr _ hi hr]
    exact (operateBody_tableRow _ hi s.clearErr).kept
  have hexact : (operate Config.params i s).now = s.now + durationUs i * Config.params.ticksPerUs := hnow rfl
  obtain ⟨atEnd, -⟩ := levelsAgree Config.params i s xs hi hr hidle hxs
  obtain ⟨t, hrun, hobs⟩ := atEnd (by rw [hlen, hexact])
  refine ⟨_, t, ls, new, exec_eq_accept i s, hrun, hls, ?_, ?_, ?_, ?_, ?_, ?_, hevents, hanswers, ?_⟩
  · exact (congrArg State.busy hobs).trans (hkept.busy.trans hidle)
  · exact (congrArg State.err hobs).trans herr
  · exact (congrArg State.ready hobs).trans (hkept.ready.trans hr)
  · exact (congrArg State.lineId hobs).trans hkept.lineId
  · exact (congrArg State.cfgerr hobs).trans hkept.cfgerr
  · exact (congrArg State.trace hobs).trans htrace
  · exact (congrArg State.result hobs).trans hresult

end Sys2Proof.Machine
end

section
/-! PROOFS. What samples return steers nothing (20_memory.md R60, 40_execution_model.md R114): every operation keeps two
states alike, whatever the oracles, that differ at most in what samples returned. -/

namespace Sys2Proof.Machine

/-- `SameButSamples`, field by field. -/
structure Alike (s t : State) : Prop where
  lineId : s.lineId = t.lineId
  ready  : s.ready = t.ready
  busy   : s.busy = t.busy
  err    : s.err = t.err
  cfgerr : s.cfgerr = t.cfgerr
  op     : s.op = t.op
  phase  : s.phase = t.phase
  cnt    : s.cnt = t.cnt
  bitidx : s.bitidx = t.bitidx
  pads   : s.pads = t.pads
  now    : s.now = t.now
  host   : s.host = t.host
  trace  : eraseSamples s.trace = eraseSamples t.trace
  sh     : kindOf s.op = some .writeSlot → s.sh = t.sh

theorem sameButSamples_iff {s t : State} : SameButSamples s t ↔ Alike s t := by
  constructor
  · rintro ⟨hfields, htrace, hsh⟩
    constructor
    case trace => exact htrace
    case sh => exact hsh
    all_goals rw [← hfields]
  · rintro ⟨lineId, ready, busy, err, cfgerr, op, phase, cnt, bitidx, pads, now, host, trace, sh⟩
    refine ⟨?_, trace, sh⟩
    rw [lineId, ready, busy, err, cfgerr, op, phase, cnt, bitidx, pads, now, host]

theorem eraseSamples_append (a b : List Stamped) : eraseSamples (a ++ b) = eraseSamples a ++ eraseSamples b :=
  List.map_append

theorem Alike.trace_length {s t : State} (h : Alike s t) : s.trace.length = t.trace.length := by
  simpa [eraseSamples] using congrArg List.length h.trace

theorem Alike.pad {s t : State} (h : Alike s t) (id : LineId) : s.pad id = t.pad id := State.pad_congr h.pads id

/-! ### The operations -/

/-- Both traces grow by the same event. -/
theorem Alike.trace_append {s t : State} (h : Alike s t) (e : Event) :
    eraseSamples (s.trace ++ [⟨s.now, e⟩]) = eraseSamples (t.trace ++ [⟨t.now, e⟩]) := by
  rw [eraseSamples_append, eraseSamples_append, h.trace, h.now]

theorem Alike.tick {s t : State} (h : Alike s t) : Alike s.tick t.tick :=
  { h with now := congrArg (· + 1) h.now }

theorem Alike.raise {s t : State} (h : Alike s t) (c : ErrCode) : Alike (raise c s) (raise c t) :=
  { h with err := rfl }

theorem Alike.lineDir {s t : State} (h : Alike s t) (id : LineId) (d : Direction) :
    Alike (lineDir id d s) (lineDir id d t) :=
  { h with
    pads := by rw [lineDir_pads, lineDir_pads, h.pads, h.pad]
    trace := h.trace_append _ }

theorem Alike.lineLevel {s t : State} (h : Alike s t) (id : LineId) (l : Level) :
    Alike (lineLevel id l s) (lineLevel id l t) :=
  { h with
    pads := by rw [lineLevel_pads, lineLevel_pads, h.pads, h.pad]
    trace := h.trace_append _ }

theorem Alike.beginWait {s t : State} (h : Alike s t) (p : Params) (o : SampleQuery → Level) (n : Nat) :
    Alike (beginWait p n s) (beginWait { p with oracle := o } n t) :=
  { h with
    cnt := by
      rw [beginWait_cnt, beginWait_cnt, h.trace_length]
      rfl
    trace := h.trace_append _ }

/-- The one operation at which the oracles may differ: what they answer goes to `SAMP`, to `SH` of a read and to the
trace. -/
theorem Alike.sample {s t : State} (h : Alike s t) (id : LineId) (l l' : Level) :
    Alike (storeSample l (s.emit (.sample id l))) (storeSample l' (t.emit (.sample id l'))) :=
  { h with
    trace := by
      rw [storeSample_trace, storeSample_trace, State.emit_trace, State.emit_trace, eraseSamples_append,
        eraseSamples_append, h.trace, h.now]
      rfl
    sh := fun hk => by
      have hop : s.op ≠ 4#4 := fun hop => by
        rw [storeSample_op, State.emit_op, hop] at hk
        cases hk
      rw [storeSample_sh, storeSample_sh, State.emit_op, State.emit_op, ← h.op, if_neg hop, if_neg hop]
      exact h.sh hk }

theorem Alike.perform {s t : State} (h : Alike s t) (p : Params) (o : SampleQuery → Level) (a : Action) :
    Alike (perform p a s) (perform { p with oracle := o } a t) := by
  cases a with
  | dirOut => simp only [Machine.perform, h.lineId]; exact h.lineDir _ _
  | dirIn => simp only [Machine.perform, h.lineId]; exact h.lineDir _ _
  | lvlLo => simp only [Machine.perform, h.lineId]; exact h.lineLevel _ _
  | lvlHi => simp only [Machine.perform, h.lineId]; exact h.lineLevel _ _
  | sample => simp only [Machine.perform, h.lineId]; exact h.sample _ _ _

theorem Alike.performAll {s t : State} (h : Alike s t) (p : Params) (o : SampleQuery → Level) (as : List Action) :
    Alike (performAll p as s) (performAll { p with oracle := o } as t) := by
  induction as generalizing s t with
  | nil => exact h
  | cons a as ih => exact ih (h.perform p o a)

/-- The phase table looks at `SH` in a write slot only. -/
theorem phaseTable_congr {k : SlotKind} (ph : BitVec 2) {b b' : Bool} (h : k = .writeSlot → b = b') :
    phaseTable k ph b = phaseTable k ph b' := by
  cases k with
  | writeSlot => rw [h rfl]
  | readSlot | resetSeq => rfl

theorem Alike.enter {s t : State} (h : Alike s t) (p : Params) (o : SampleQuery → Level) {k : SlotKind}
    (hk : kindOf s.op = some k) : Alike (enter p k s) (enter { p with oracle := o } k t) := by
  have hrow : phaseTable k s.phase (lowBit s.sh) = phaseTable k t.phase (lowBit t.sh) := by
    rw [h.phase]
    exact phaseTable_congr _ fun hw => congrArg lowBit (h.sh (hw ▸ hk))
  simp only [Machine.enter, hrow]
  exact (h.performAll p o _).beginWait p o _

theorem Alike.complete {s t : State} (h : Alike s t) : Alike (complete s) (complete t) :=
  { h with busy := rfl }

theorem Alike.setPhase {s t : State} (h : Alike s t) :
    Alike { s with phase := s.phase + 1 } { t with phase := t.phase + 1 } :=
  { h with phase := congrArg (· + 1) h.phase }

theorem Alike.shiftedOut {s t : State} (h : Alike s t) (hw : kindOf s.op = some .writeSlot) :
    (if s.op = 3#4 then shiftOut s.sh else s.sh) = if t.op = 3#4 then shiftOut t.sh else t.sh := by
  rw [h.op, h.sh hw]

theorem Alike.setSlot {s t : State} (h : Alike s t) :
    Alike { s with sh := if s.op = 3#4 then shiftOut s.sh else s.sh, bitidx := s.bitidx + 1, phase := 0 }
      { t with sh := if t.op = 3#4 then shiftOut t.sh else t.sh, bitidx := t.bitidx + 1, phase := 0 } :=
  { h with phase := rfl, bitidx := congrArg (· + 1) h.bitidx, sh := h.shiftedOut }

theorem Alike.nextSlot {s t : State} (h : Alike s t) (p : Params) (o : SampleQuery → Level) {k : SlotKind}
    (hk : kindOf s.op = some k) : Alike (nextSlot p k s) (nextSlot { p with oracle := o } k t) :=
  h.setSlot.enter p o hk

theorem Alike.endOfWait {s t : State} (h : Alike s t) (p : Params) (o : SampleQuery → Level) {k : SlotKind}
    (hk : kindOf s.op = some k) : Alike (endOfWait p k s) (endOfWait { p with oracle := o } k t) := by
  by_cases hph : s.phase < lastPhase k
  · rw [endOfWait_nextPhase p hph, endOfWait_nextPhase _ (h.phase ▸ hph)]
    exact h.setPhase.enter p o hk
  · by_cases hslot : (s.op = 3 ∨ s.op = 4) ∧ s.bitidx < 7
    · obtain ⟨hop, hbit⟩ := hslot
      rw [endOfWait_nextSlot p hph hop hbit, endOfWait_nextSlot _ (h.phase ▸ hph) (h.op ▸ hop) (h.bitidx ▸ hbit)]
      exact h.nextSlot p o hk
    · rw [endOfWait_complete p hph hslot, endOfWait_complete _ (h.phase ▸ hph) (h.op ▸ h.bitidx ▸ hslot)]
      exact h.complete

/-! ### The acceptance of a command and the edge -/

theorem Alike.lineConfigure {s t : State} (h : Alike s t) (p : Params) (o : SampleQuery → Level) (id : LineId) :
    Alike (lineConfigure p id s).2 (lineConfigure { p with oracle := o } id t).2 :=
  { h with
    pads := by rw [lineConfigure_pads, lineConfigure_pads, h.pads, h.trace_length]
    trace := h.trace_append _ }

theorem Alike.acceptInit {s t : State} (h : Alike s t) (p : Params) (o : SampleQuery → Level) (id : LineId) :
    Alike (accept p (.init id) s) (accept { p with oracle := o } (.init id) t) := by
  have hc := h.lineConfigure p o id
  cases ha : p.platform id with
  | ok =>
    rw [accept_init_ok ha, accept_init_ok (p := { p with oracle := o }) ha]
    exact { hc with lineId := rfl, ready := rfl, err := rfl }
  | err e =>
    rw [accept_init_rejected ha, accept_init_rejected (p := { p with oracle := o }) ha]
    exact { hc with lineId := congrArg p.freeLineId h.trace_length, ready := rfl, err := rfl, cfgerr := rfl }

theorem Alike.started {s t : State} (h : Alike s t) (i : Instr) : Alike (s.started i) (t.started i) :=
  { h with err := rfl, op := rfl, sh := fun _ => rfl, bitidx := rfl, phase := rfl, busy := rfl }

theorem Alike.startTimed {s t : State} (h : Alike s t) (p : Params) (o : SampleQuery → Level) {i : Instr}
    {k : SlotKind} (hk : kindOf i.opcode = some k) :
    Alike (startTimed p k i s) (startTimed { p with oracle := o } k i t) :=
  (h.started i).enter p o hk

theorem Alike.accept {s t : State} (h : Alike s t) (p : Params) (o : SampleQuery → Level) (i : Instr) :
    Alike (accept p i s) (accept { p with oracle := o } i t) := by
  cases hi : i.timed with
  | true =>
    cases hr : s.ready with
    | true =>
      obtain ⟨k, hk, e⟩ := accept_timed_ready p hi hr
      rw [e, accept_timed_ready_of_kind _ hk (h.ready ▸ hr)]
      exact h.startTimed p o hk
    | false =>
      rw [accept_timed_not_ready p hi hr, accept_timed_not_ready _ hi (h.ready ▸ hr)]
      exact h.raise _
  | false =>
    cases i with
    | init id => exact h.acceptInit p o id
    | ppEnable | ppDisable => exact h.raise _
    | writeBit _ | readBit | writeByte _ | readByte | owReset => cases hi

theorem Alike.hardReset {s t : State} (h : Alike s t) (p : Params) (o : SampleQuery → Level) :
    Alike (hardReset p s) (hardReset { p with oracle := o } t) :=
  ⟨rfl, rfl, rfl, rfl, congrArg p.freeCfgErr h.now, rfl, rfl, rfl, rfl, h.pads, h.now, h.host, h.trace, fun _ => rfl⟩

/-- Two outcomes that stop alike or go on to states alike. -/
inductive OutcomesAlike : Host.Outcome State Fault Refusal → Host.Outcome State Fault Refusal → Prop
  | next {s t : State} (h : Alike s t) : OutcomesAlike (.next s) (.next t)
  | fault (f : Fault) : OutcomesAlike (.fault f) (.fault f)
  | refused (r : Refusal) : OutcomesAlike (.refused r) (.refused r)

theorem OutcomesAlike.tick {a b : Host.Outcome State Fault Refusal} (h : OutcomesAlike a b) :
    OutcomesAlike (onNext State.tick a) (onNext State.tick b) := by
  cases h with
  | next h => exact .next h.tick
  | fault f => exact .fault f
  | refused r => exact .refused r

theorem Alike.sequencerEdge {s t : State} (h : Alike s t) (p : Params) (o : SampleQuery → Level) :
    OutcomesAlike (sequencerEdge p s) (sequencerEdge { p with oracle := o } t) := by
  unfold Machine.sequencerEdge
  by_cases hc : 1 < s.cnt
  · rw [if_pos hc, if_pos (h.cnt ▸ hc)]
    exact .next { h with cnt := congrArg (· - 1) h.cnt }
  · rw [if_neg hc, if_neg (h.cnt ▸ hc), ← h.op]
    cases hk : kindOf s.op with
    | some k => exact .next (h.endOfWait p o hk)
    | none => exact .fault _

theorem Alike.acceptWord {s t : State} (h : Alike s t) (p : Params) (o : SampleQuery → Level) (w : Word) :
    OutcomesAlike (acceptWord (fun i t => .next (Machine.accept p i t)) w s)
      (acceptWord (fun i t => .next (Machine.accept { p with oracle := o } i t)) w t) := by
  cases hd : decode w with
  | illegal why =>
    rw [acceptWord_of_illegal hd, acceptWord_of_illegal hd]
    exact .next (h.raise _)
  | command i =>
    rw [acceptWord_of_command hd, acceptWord_of_command hd]
    exact .next (h.accept p o i)

/-- An edge with the same pins. -/
theorem Alike.tickEdge {s t : State} (h : Alike s t) (p : Params) (o : SampleQuery → Level) (x : Pins) :
    OutcomesAlike (tickEdge p x s) (tickEdge { p with oracle := o } x t) := by
  refine OutcomesAlike.tick ?_
  unfold edgeCore
  rw [← h.busy]
  split
  · split
    · exact .refused _
    · exact .next (h.hardReset p o)
  · split
    · exact h.sequencerEdge p o
    · split
      · exact h.acceptWord p o x.cmd
      · exact .next h

/-- Settles O54: an edge keeps two states alike. -/
theorem samplesSteerNothing : Obligations.SamplesSteerNothing := by
  intro p o x s t h
  have halike := (sameButSamples_iff.mp h).tickEdge p o x
  generalize tickEdge p x s = a, tickEdge { p with oracle := o } x t = b at halike
  cases halike with
  | next h => exact ⟨fun s' e => by cases e; exact ⟨_, rfl, sameButSamples_iff.mpr h⟩, by simp, by simp⟩
  | fault f => exact ⟨by simp, fun f' e => by cases e; rfl, by simp⟩
  | refused r => exact ⟨by simp, by simp, fun r' e => by cases e; rfl⟩

end Sys2Proof.Machine
end
